-- ==== Sys2Proof/Word.lean ====
section
/-! DEFINITION. The types of a word, a character byte and a register number
(spec/00_scope.md R9, R12, R14; spec/10_state.md R31). -/

namespace Sys2Proof

/-- `WORD`: a 16-bit unsigned word; its arithmetic is modulo 2^16 (R9, R14). -/
abbrev Word := BitVec 16

/-- A byte of the terminal interface, 0x00 to 0xFF (R70). -/
abbrev Byte := BitVec 8

/-- The number of a general register R0 to R7; every 3-bit register field is one (R31, R44). -/
abbrev Reg := Fin 8

end Sys2Proof
end

