-- ==== Sys2Proof/Config.lean ====
section
/-! DEFINITION. What an implementation fixes and the spec leaves open: the parameters of
spec/00_scope.md R10 as plain data, and the free values of spec/20_memory.md R71 and R72 as
constants without a body. -/

namespace Sys2Proof.Config

/-- `EOF_POLICY` (R10, R72, decision D16): what `read_char` does when the input will never supply
another byte. -/
inductive EofPolicy where
  /-- The step never completes. -/
  | stuck
  /-- `read_char` goes on with `v` (DESIGN CHOICE, notes/assumptions/17.md: `v` is a whole word). -/
  | value (v : Word)
  deriving DecidableEq, Repr

/-- The parameters of R10 that a running machine uses.  They are fixed for a run; no instruction
writes them (DESIGN CHOICE, notes/assumptions/25.md: they are carried in the state). -/
structure Params where
  /-- `IN_PROMPT` (R10, R215). -/
  inPrompt : List Byte
  /-- `HALT_NOTICE` (R10, R217). -/
  haltNotice : List Byte
  /-- `EOF_POLICY` (R10, R72). -/
  eofPolicy : EofPolicy
  /-- `JSRR_READ_BASE_FIRST` (R10, R163). -/
  jsrrReadBaseFirst : Bool
  deriving DecidableEq, Repr

/-- The parameters of R10 that only the reset state uses. -/
structure Boot where
  /-- `PC_START` (R10, R281). -/
  pcStart : Word
  /-- `INIT_GPR[1..7]` (R10, R33): the reset values of R1 to R7, in that order. -/
  initGpr : Vector Word 7
  /-- `MEM_INIT` (R10, R62): the memory before the loader writes, as (address, word) pairs in the
  canonical form of the machine's memory. -/
  memInit : List (Nat × Word)
  deriving DecidableEq, Repr

/-- FREE VALUE (R71, decision D15; notes/assumptions/15.md): the n-th answer of the terminal's clock,
true when the terminal would report a byte it holds. -/
opaque pollDraw : Nat → Bool

/-- FREE VALUE (R72, R280 'whatever the terminal will supply'; notes/assumptions/16.md): the n-th
byte of the input that no list in the state names. -/
opaque terminalByte : Nat → Byte

end Sys2Proof.Config
end

