-- ==== Sys2Proof/Machine/Defaults.lean ====
section
/-! DEFINITION. The default values of the parameters of spec/00_scope.md R10, the addresses of the
keyboard's two cells (spec/20_memory.md R63) and what an unlisted address of memory reads as. -/

namespace Sys2Proof.Machine

/-- KBSR, the keyboard status register (R9 `KBSR_ADDR`, R63). -/
def kbsr : Word := 0xFE00

/-- KBDR, the keyboard data register (R9 `KBDR_ADDR`, R63). -/
def kbdr : Word := 0xFE02

/-- What an address that the memory's list does not name reads as: the default of `MEM_INIT`
(R10, R62, decision D6; DESIGN CHOICE, notes/assumptions/6.md). -/
def unlistedWord : Word := 0x0000

/-- The default of `IN_PROMPT`, "Enter a character: " (R10; PRESUMED, notes/assumptions/13.md). -/
def defaultInPrompt : List Byte :=
  [0x45, 0x6E, 0x74, 0x65, 0x72, 0x20, 0x61, 0x20, 0x63, 0x68, 0x61, 0x72, 0x61, 0x63, 0x74, 0x65,
   0x72, 0x3A, 0x20]

/-- The default of `HALT_NOTICE`, "HALT" and a line feed (R10; PRESUMED,
notes/assumptions/13.md). -/
def defaultHaltNotice : List Byte := [0x48, 0x41, 0x4C, 0x54, 0x0A]

/-- The defaults of the parameters a running machine uses (R10). -/
def defaultParams : Config.Params where
  inPrompt := defaultInPrompt
  haltNotice := defaultHaltNotice
  eofPolicy := .stuck
  jsrrReadBaseFirst := false

/-- The defaults of the reset parameters (R10): `PC_START` 0x3000 (PRESUMED,
notes/assumptions/4.md), R1 to R7 zero (DESIGN CHOICE, notes/assumptions/5.md), memory all zero
(DESIGN CHOICE, notes/assumptions/6.md). -/
def defaultBoot : Config.Boot where
  pcStart := 0x3000
  initGpr := #v[0, 0, 0, 0, 0, 0, 0]
  memInit := []

end Sys2Proof.Machine
end

