-- ==== Sys2Proof/Machine/State.lean ====
section
/-! DEFINITION. The machine's state as plain data: the record `(R[0..7], PC, COND, Mem, run, io)` of
spec/10_state.md, the host's abort request (spec/60_exceptions.md R262) and the parameters of
spec/00_scope.md R10; the reasons a step can stop; and the state after reset. -/

namespace Sys2Proof.Machine

/-- The memory array (R60): (address, word) pairs.  The cell is one 16-bit word, the unit of
addressing (notes/assumptions/7.md); an unlisted address reads as `unlistedWord`. -/
abbrev Memory := List (Nat × Word)

/-- The canonical form from address `lo` on: addresses rising, inside the address space, and no
entry equal to what an unlisted address reads as. -/
def Memory.wfFrom : Nat → Memory → Bool
  | _, [] => true
  | lo, (k, v) :: rest => lo ≤ k && k < 65536 && v != unlistedWord && Memory.wfFrom (k + 1) rest

/-- The canonical form of the memory's list: equal memories are equal lists. -/
def Memory.wf (m : Memory) : Bool := m.wfFrom 0

/-- The two causes of a fatal error, with what each records of the instruction (R251, R252). -/
inductive FatalCause where
  /-- Code 1: the opcode w[15:12] of RTI or RES. -/
  | invalidOpcode (op : BitVec 4)
  /-- Code 2: a trap vector w[7:0] outside the six. -/
  | invalidTrapVector (vector : BitVec 8)
  deriving DecidableEq, Repr

/-- The numeric code of a fatal cause (R251). -/
def FatalCause.code : FatalCause → Nat
  | .invalidOpcode _ => 1
  | .invalidTrapVector _ => 2

/-- What a fatal error records (R252): the cause, the instruction word, the address it came from. -/
structure FatalInfo where
  cause : FatalCause
  word : Word
  address : Word
  deriving DecidableEq, Repr

/-- The run state (R42): only `running` takes steps. -/
inductive RunState where
  | running
  | halted
  | fatal (info : FatalInfo)
  | aborted
  deriving DecidableEq, Repr

/-- Where the host's abort lands (R262): at the next step boundary, or in the next blocking read of
GETC or IN. -/
inductive AbortPoint where
  | boundary
  | duringRead
  deriving DecidableEq, Repr

/-- The input after the bytes of `Io.inq`. -/
inductive InputTail where
  /-- The terminal will never supply another byte: `EOF_POLICY` applies (R72). -/
  | ends
  /-- The terminal supplies further bytes that nothing constrains: `Config.terminalByte next`,
  `Config.terminalByte (next + 1)`, and so on (free values, notes/assumptions/16.md). -/
  | free (next : Nat)
  deriving DecidableEq, Repr

/-- The `io` component (R46, R71 to R73): an input oracle, an output list, a flushed-prefix
length. -/
structure Io where
  /-- The next bytes the terminal will supply, in order (R71). -/
  inq : List Byte
  /-- What the terminal supplies after them. -/
  tail : InputTail
  /-- The answers of the next draws of `Poll()`, in order (R71). -/
  polls : List Bool
  /-- The number of the next draw after them, `Config.pollDraw draws` (a free value,
  notes/assumptions/15.md). -/
  draws : Nat
  /-- The output trace: the bytes passed to `write_char`, oldest first (R73). -/
  output : List Byte
  /-- How many bytes of the trace are guaranteed to have reached the terminal (R73). -/
  flushed : Nat
  deriving DecidableEq, Repr

structure State where
  /-- R0 to R7 (R30, R31). -/
  regs : Vector Word 8
  /-- PC (R34). -/
  pc : Word
  /-- COND, a 16-bit slot (R37, C1). -/
  cond : Word
  /-- The memory array, KBSR and KBDR among its cells (R60, R63). -/
  mem : Memory
  /-- The run state (R42). -/
  run : RunState
  /-- The collaborator's side (R46). -/
  io : Io
  /-- The host's abort request (R262; notes/assumptions/19.md). -/
  hostAbort : Option AbortPoint
  /-- The parameters of R10, fixed for a run (notes/assumptions/25.md). -/
  params : Config.Params
  deriving DecidableEq, Repr

/-- Why the machine takes no step.  Each is the spec's own words for a step that is not taken or
never completes; each is safe (the model stops where the hardware stops or hangs).  A step that never
completes has no next state, so its fault carries what the terminal has been given meanwhile (DESIGN
CHOICE, notes/assumptions/17.md, 24.md). -/
inductive Fault where
  /-- Raised by `step`: 'A HALTED machine takes no further steps' (R42).  Safe. -/
  | runHalted
  /-- Raised by `step`: 'A FATAL run takes no further steps' (R250).  Safe. -/
  | runFatal
  /-- Raised by `step`: ABORTED is final (R262).  Safe. -/
  | runAborted
  /-- Raised by GETC and IN when no byte will ever come and `EOF_POLICY` is `stuck`: 'the step never
  completes' (R72).  `io` is the terminal's side during the wait: IN's prompt is in its trace, since
  output goes out 'as the routine runs' (R219).  Safe. -/
  | readNeverCompletes (io : Io)
  /-- Raised by PUTS and PUTSP when no word of memory is zero: 'the routine never ends and writes
  output without end' (R221).  `io` is the terminal's side when the routine begins; after its trace the
  routine writes `period`, the bytes of one pass over the 65,536 words, over and over.  Safe. -/
  | stringNeverEnds (io : Io) (period : List Byte)
  deriving DecidableEq, Repr

/-- Why an instruction has no meaning. -/
inductive Refusal where
  /-- Raised by `exec` for an instruction that has no meaning yet.  Safe.  No arm of this model
  raises it. -/
  | notModelled (mnemonic : String)
  deriving DecidableEq, Repr

/-- The state after reset, before the loader has written an image, for any value of the parameters
(R280, R285 steps 1, 3 and 4).  The host has asked for no abort, and of the terminal's input nothing
is fixed (DESIGN CHOICE, notes/assumptions/15.md, 16.md, 19.md). -/
def State.boot (b : Config.Boot) (p : Config.Params) : State where
  regs := #v[0x0000, b.initGpr[0], b.initGpr[1], b.initGpr[2], b.initGpr[3], b.initGpr[4],
    b.initGpr[5], b.initGpr[6]]
  pc := b.pcStart
  cond := 0x0002
  mem := b.memInit
  run := .running
  io := { inq := [], tail := .free 0, polls := [], draws := 0, output := [], flushed := 0 }
  hostAbort := none
  params := p

/-- The machine right after reset, with the default of every parameter (R10, R280). -/
def State.reset : State := State.boot defaultBoot defaultParams

end Sys2Proof.Machine
end

