-- ==== Sys2Proof/Machine/Ops.lean ====
section
/-! DEFINITION. The named operations over memory, registers, the terminal and the run state:
the register file (spec/10_state.md R45), the memory array and the memory-mapped I/O adapter
(spec/20_memory.md R60 to R73), fatal errors, trap entry and return, the host's abort
(spec/60_exceptions.md R250 to R262), fetch (spec/30_encoding.md R121, R122) and the loader's
interface (spec/70_reset_and_hazards.md R283). -/

namespace Sys2Proof.Machine

/-- What a step or a meaning answers. -/
abbrev Result := Host.Outcome State Fault Refusal

/-! ## Registers -/

/-- `x[r]` (R13). -/
def State.reg (s : State) (r : Reg) : Word := s.regs.get r

/-- `x[r] <- v` (R13). -/
def State.setReg (s : State) (r : Reg) (v : Word) : State := { s with regs := s.regs.set r v }

/-! ## The memory array -/

/-- The word at an address of the list. -/
def Memory.lookup : Memory → Nat → Word
  | [], _ => unlistedWord
  | (k, v) :: rest, a => if a = k then v else Memory.lookup rest a

/-- The list with the entry `(a, v)` at its place. -/
def Memory.insert : Memory → Nat → Word → Memory
  | [], a, v => [(a, v)]
  | (k, w) :: rest, a, v =>
    if a < k then (a, v) :: (k, w) :: rest
    else if a = k then (a, v) :: rest
    else (k, w) :: Memory.insert rest a v

/-- `Mem[a]`, the raw stored word, without a side effect (R17). -/
def Memory.read (m : Memory) (a : Word) : Word := m.lookup a.toNat

/-- `Mem[a] <- v` (R67).  Writing what an unlisted address reads as removes the entry. -/
def Memory.write (m : Memory) (a v : Word) : Memory :=
  if v = unlistedWord then m.filter (fun c => c.1 != a.toNat) else m.insert a.toNat v

/-- Consecutive words from address `a` on. -/
def Memory.writeWords : Memory → Word → List Word → Memory
  | m, _, [] => m
  | m, a, v :: vs => Memory.writeWords (m.write a v) (a + 1) vs

/-! ## The terminal -/

/-- Whether the input the terminal will supply holds another byte. -/
def Io.hasByte (io : Io) : Bool :=
  match io.inq, io.tail with
  | [], .ends => false
  | _, _ => true

/-- The head of the input, and the rest (R72); none where no byte will ever come. -/
def Io.takeByte (io : Io) : Option (Byte × Io) :=
  match io.inq, io.tail with
  | b :: bs, _ => some (b, { io with inq := bs })
  | [], .free n => some (Config.terminalByte n, { io with tail := .free (n + 1) })
  | [], .ends => none

/-- One draw: a listed answer where there is one, else a free value. -/
def Io.draw (io : Io) : Bool × Io :=
  match io.polls with
  | b :: bs => (b, { io with polls := bs })
  | [] => (Config.pollDraw io.draws, { io with draws := io.draws + 1 })

/-- `Poll()` (R71): a draw, true only if the input holds a byte. -/
def Io.poll (io : Io) : Bool × Io := (io.draw.1 && io.hasByte, io.draw.2)

/-- `WriteChar` of each byte in turn (R73). -/
def State.writeChars (s : State) (bs : List Byte) : State :=
  { s with io := { s.io with output := s.io.output ++ bs } }

/-- Every byte written so far reaches the terminal (R217). -/
def State.flush (s : State) : State :=
  { s with io := { s.io with flushed := s.io.output.length } }

/-! ## The memory-mapped I/O adapter -/

/-- `zext_8` (R16; decision D11, DESIGN CHOICE, notes/assumptions/12.md). -/
def zext8 (b : Byte) : Word := b.setWidth 16

/-- KBSR's value when input is pending (R65; decision D10, DESIGN CHOICE,
notes/assumptions/11.md). -/
def kbsrReady : Word := 0x8000

/-- KBSR's value when no input is pending (R65). -/
def kbsrIdle : Word := 0x0000

/-- The side effect of a read of KBSR (R64).  `Poll()` answers true only if a byte is there, so
`ReadChar()` does not block and the case without a byte is the idle one. -/
def State.pollKeyboard (s : State) : State :=
  match s.io.poll.1, s.io.poll.2.takeByte with
  | true, some (c, io) =>
    { s with io := io, mem := (s.mem.write kbsr kbsrReady).write kbdr (zext8 c) }
  | _, _ => { s with io := s.io.poll.2, mem := s.mem.write kbsr kbsrIdle }

/-- The side effect of a read of address `a`: only KBSR has one (R66, R76). -/
def State.touch (s : State) (a : Word) : State := if a = kbsr then s.pollKeyboard else s

/-- `MemRead(a, 1)`: the word read, and the state after the read (R64). -/
def State.memRead (s : State) (a : Word) : Word × State := ((s.touch a).mem.read a, s.touch a)

/-- `MemWrite(a, 1, v)` (R67). -/
def State.memWrite (s : State) (a v : Word) : State := { s with mem := s.mem.write a v }

/-- Fetch through the adapter at PC, then `PC <- PC + 1` modulo 2^16 (R120 to R122). -/
def State.fetch (s : State) : Word × State :=
  ((s.memRead s.pc).1, { (s.memRead s.pc).2 with pc := s.pc + 1 })

/-! ## Fatal errors, traps, the host's abort -/

/-- `raise Fatal(cause, ...)` in the execute phase, where PC is already the instruction's address
plus 1 (R20, R250, R252): the run state becomes FATAL and nothing else changes. -/
def State.raiseFatal (s : State) (cause : FatalCause) (w : Word) : State :=
  { s with run := .fatal { cause := cause, word := w, address := s.pc - 1 } }

/-- Trap entry (R210, R257): the return address, PC, goes to R7, and nothing else is saved. -/
def State.enterTrap (s : State) : State := s.setReg 7 s.pc

/-- Trap return (R258): a routine returns by finishing its step; PC already holds the address of the
word after the TRAP. -/
def State.returnFromTrap (s : State) : Result := .next s

/-- The host's abort at a step boundary (R262). -/
def State.abortAtBoundary (s : State) : State := { s with run := .aborted }

/-- The host's abort inside a step (R262, R219, decision D18): the registers and the memory are those
the step began with, the bytes already written stay in the trace.  `entry` is the state in which the
execute phase began, so PC is one past its value at the step's start; `now` is the state the abort
meets. -/
def State.abortInStep (entry now : State) : State :=
  { entry with pc := entry.pc - 1, io := now.io, run := .aborted }

/-- `ReadChar()` of GETC and IN (R72, R219), and what the routine does with the character: the host
may abort the wait (DESIGN CHOICE, notes/assumptions/19.md: also where a byte is already there); where
no byte will ever come `EOF_POLICY` decides (DESIGN CHOICE, notes/assumptions/17.md: its `v` is a
whole word, and a read that never completes carries the terminal's side as the routine has left it,
IN's prompt in the trace). -/
def State.readCharThen (entry now : State) (k : Word → State → Result) : Result :=
  if now.hostAbort = some .duringRead then .next (entry.abortInStep now)
  else
    match now.io.takeByte, now.params.eofPolicy with
    | some (c, io), _ => k (zext8 c) { now with io := io }
    | none, .value v => k v now
    | none, .stuck => .fault (.readNeverCompletes now.io)

/-! ## The loader's interface -/

/-- What the loader writes before the first step (R283): the words from the origin on, or nothing
where the image would pass the end of the address space. -/
def State.loadImage (s : State) (origin : Word) (image : List Word) : Option State :=
  if origin.toNat + image.length ≤ 65536 then
    some { s with mem := s.mem.writeWords origin image }
  else none

end Sys2Proof.Machine
end

