-- ==== Sys2Proof/Machine/Operands.lean ====
section
/-! DEFINITION. The operand forms: sign extension (spec/00_scope.md R15), the immediates
(spec/30_encoding.md R106) and the addressing modes (spec/42_load_store.md R180). -/

namespace Sys2Proof.Machine

/-- `sext_N` of an N-bit field, for N in 5, 6, 9, 11 (R15, R106). -/
def sext {n : Nat} (v : BitVec n) : Word := v.signExtend 16

/-- The PC-relative address: the incremented PC plus the sign-extended offset, modulo 2^16 (R180). -/
def State.pcRelative {n : Nat} (s : State) (off : BitVec n) : Word := s.pc + sext off

/-- The base-plus-offset address (R180). -/
def State.baseOffset (s : State) (baseR : Reg) (off6 : BitVec 6) : Word := s.reg baseR + sext off6

/-- The indirect address: the pointer read at the PC-relative address, through the adapter, and the
state after that read (R180; decision D8, DESIGN CHOICE, notes/assumptions/9.md). -/
def State.indirect (s : State) (off9 : BitVec 9) : Word × State := s.memRead (s.pcRelative off9)

/-- The low byte of a word, the byte OUT writes (R213). -/
def lowByte (v : Word) : Byte := v.extractLsb' 0 8

/-- The high byte of a word. -/
def highByte (v : Word) : Byte := v.extractLsb' 8 8

/-- The byte PUTS writes for a word of its string (R214). -/
def putsBytes (v : Word) : List Byte := [lowByte v]

/-- The bytes PUTSP writes for a word of its string: the low byte, then the high byte unless it is
zero (R216). -/
def putspBytes (v : Word) : List Byte :=
  if highByte v = 0 then [lowByte v] else [lowByte v, highByte v]

/-- The bytes of the string at `a` when a zero word ends it within `fuel` words (R214, R216).  The
reads are raw (decision D9, DESIGN CHOICE, notes/assumptions/10.md) and the address wraps modulo 2^16
(decision D19, DESIGN CHOICE, notes/assumptions/20.md). -/
def stringBytes (bytesOf : Word → List Byte) (m : Memory) : Nat → Word → Option (List Byte)
  | 0, _ => none
  | fuel + 1, a =>
    if m.read a = 0 then some []
    else (stringBytes bytesOf m fuel (a + 1)).map (bytesOf (m.read a) ++ ·)

/-- The bytes a string routine writes for the first `n` words from `a` on (R214, R216; addresses wrap,
decision D19, DESIGN CHOICE, notes/assumptions/20.md). -/
def stringOutput (bytesOf : Word → List Byte) (m : Memory) (a : Word) (n : Nat) : List Byte :=
  (List.range n).flatMap fun k => bytesOf (m.read (a + BitVec.ofNat 16 k))

end Sys2Proof.Machine
end

