-- ==== Sys2Proof/Machine/Flags.lean ====
section
/-! DEFINITION. The condition-flag unit: COND's three values (spec/10_state.md R37), `setcc` (R38) and
BR's test (spec/41_control.md R160). -/

namespace Sys2Proof.Machine

/-- COND with only P set (R37). -/
def condP : Word := 0x0001

/-- COND with only Z set (R37). -/
def condZ : Word := 0x0002

/-- COND with only N set (R37). -/
def condN : Word := 0x0004

/-- The flag of a 16-bit value (R38). -/
def condOf (v : Word) : Word := if v = 0 then condZ else if v.getLsbD 15 then condN else condP

/-- `setcc(v)` (R38): the earlier flag is overwritten. -/
def State.setcc (s : State) (v : Word) : State := { s with cond := condOf v }

/-- `x[r] <- v; setcc(x[r])`, as every instruction that updates flags writes its result (R39). -/
def State.writeResult (s : State) (r : Reg) (v : Word) : State := (s.setReg r v).setcc v

/-- BR's test: some flag that `nzp` names is set in COND (R109, R160). -/
def State.branchTaken (s : State) (nzp : BitVec 3) : Bool := nzp &&& s.cond.extractLsb' 0 3 != 0

end Sys2Proof.Machine
end

