-- ==== Sys2Proof/Machine/Control.lean ====
section
/-! DEFINITION. BR, JMP, JSR and JSRR (spec/41_control.md R160 to R163).  PC is the incremented
value. -/

namespace Sys2Proof.Machine

/-- BR (R160). -/
def execBr (nzp : BitVec 3) (off9 : BitVec 9) (s : State) : Result :=
  .next (if s.branchTaken nzp then { s with pc := s.pcRelative off9 } else s)

/-- JMP; RET is JMP R7, with no other effect (R161). -/
def execJmp (baseR : Reg) (s : State) : Result := .next { s with pc := s.reg baseR }

/-- JSR (R162). -/
def execJsr (off11 : BitVec 11) (s : State) : Result :=
  .next { s.setReg 7 s.pc with pc := s.pcRelative off11 }

/-- JSRR (R163): R7 is written first and BaseR read after it, unless `JSRR_READ_BASE_FIRST` is set
(decision D17, DESIGN CHOICE, notes/assumptions/18.md). -/
def execJsrr (baseR : Reg) (s : State) : Result :=
  .next { s.setReg 7 s.pc with
    pc := if s.params.jsrrReadBaseFirst then s.reg baseR else (s.setReg 7 s.pc).reg baseR }

end Sys2Proof.Machine
end

