-- ==== Sys2Proof/Syntax.lean ====
section
/-! DEFINITION. The instructions: one constructor per row of spec/opcode_table.json, with the
fields of spec/30_encoding.md R102 and R103.  A field named `ign` holds the bits that R103 marks
`x`; the constructor keeps them so that the word an instruction came from is not lost (R252 records
it), and no meaning reads them (R110). -/

namespace Sys2Proof

inductive Instr where
  /-- ADD, register mode (R140). -/
  | addReg (dr sr1 : Reg) (ign : BitVec 2) (sr2 : Reg)
  /-- ADD, immediate mode (R141). -/
  | addImm (dr sr1 : Reg) (imm5 : BitVec 5)
  /-- AND, register mode (R142). -/
  | andReg (dr sr1 : Reg) (ign : BitVec 2) (sr2 : Reg)
  /-- AND, immediate mode (R143). -/
  | andImm (dr sr1 : Reg) (imm5 : BitVec 5)
  /-- NOT (R144). -/
  | not (dr sr : Reg) (ign : BitVec 6)
  /-- BR (R160); `nzp` is w[11:9], n at its bit 2, z at its bit 1, p at its bit 0 (R109). -/
  | br (nzp : BitVec 3) (off9 : BitVec 9)
  /-- JMP; RET when BaseR is R7 (R161). -/
  | jmp (ignHi : BitVec 3) (baseR : Reg) (ignLo : BitVec 6)
  /-- JSR (R162). -/
  | jsr (off11 : BitVec 11)
  /-- JSRR (R163). -/
  | jsrr (ignHi : BitVec 2) (baseR : Reg) (ignLo : BitVec 6)
  /-- LD (R181). -/
  | ld (dr : Reg) (off9 : BitVec 9)
  /-- LDI (R182). -/
  | ldi (dr : Reg) (off9 : BitVec 9)
  /-- LDR (R183). -/
  | ldr (dr baseR : Reg) (off6 : BitVec 6)
  /-- LEA (R184). -/
  | lea (dr : Reg) (off9 : BitVec 9)
  /-- ST (R185). -/
  | st (sr : Reg) (off9 : BitVec 9)
  /-- STI (R186). -/
  | sti (sr : Reg) (off9 : BitVec 9)
  /-- STR (R187). -/
  | str (sr baseR : Reg) (off6 : BitVec 6)
  /-- TRAP GETC (R212). -/
  | trapGetc (ign : BitVec 4)
  /-- TRAP OUT (R213). -/
  | trapOut (ign : BitVec 4)
  /-- TRAP PUTS (R214). -/
  | trapPuts (ign : BitVec 4)
  /-- TRAP IN (R215). -/
  | trapIn (ign : BitVec 4)
  /-- TRAP PUTSP (R216). -/
  | trapPutsp (ign : BitVec 4)
  /-- TRAP HALT (R217). -/
  | trapHalt (ign : BitVec 4)
  /-- TRAP with a vector that names none of the six routines (R218). -/
  | trapInvalid (ign : BitVec 4) (vector : BitVec 8)
  /-- RTI, invalid (R240). -/
  | rti (ign : BitVec 12)
  /-- The reserved opcode, invalid (R241). -/
  | res (ign : BitVec 12)
  deriving DecidableEq, Repr

end Sys2Proof
end

