-- ==== Sys2Proof/Decode.lean ====
section
/-! DEFINITION. The decoder, total over all 65,536 words (spec/30_encoding.md R100 to R111, R116),
and the encoder written from the same formats (R103).  No word is rejected: R116 gives every word
one instruction, and the invalid ones (RTI, RES, an unrecognised trap vector) are instructions whose
effect is a fatal error. -/

namespace Sys2Proof

/-- `op = w[15:12]` (R101). -/
def opcodeField (w : Word) : BitVec 4 := w.extractLsb' 12 4

/-- The 3-bit register field whose lowest bit is bit `lo`: `(word >> lo) & 0x7` (R102). -/
def regField (w : Word) (lo : Nat) : Reg := (w.extractLsb' lo 3).toFin

/-- The trap vectors of the six routines (R105; PRESUMED, notes/assumptions/2.md). -/
def recognisedVectors : List (BitVec 8) := [0x20, 0x21, 0x22, 0x23, 0x24, 0x25]

/-- TRAP's instruction for a vector (R105, R111, R210, R211). -/
def decodeTrap (ign : BitVec 4) (vector : BitVec 8) : Instr :=
  match vector with
  | 0x20#8 => .trapGetc ign
  | 0x21#8 => .trapOut ign
  | 0x22#8 => .trapPuts ign
  | 0x23#8 => .trapIn ign
  | 0x24#8 => .trapPutsp ign
  | 0x25#8 => .trapHalt ign
  | _ => .trapInvalid ign vector

/-- The instruction a word stands for (R103, R104 (PRESUMED, notes/assumptions/1.md), R107, R108,
R116). -/
def decode (w : Word) : Instr :=
  match opcodeField w with
  | 0x0#4 => .br (w.extractLsb' 9 3) (w.extractLsb' 0 9)
  | 0x1#4 =>
    if w.getLsbD 5 then .addImm (regField w 9) (regField w 6) (w.extractLsb' 0 5)
    else .addReg (regField w 9) (regField w 6) (w.extractLsb' 3 2) (regField w 0)
  | 0x2#4 => .ld (regField w 9) (w.extractLsb' 0 9)
  | 0x3#4 => .st (regField w 9) (w.extractLsb' 0 9)
  | 0x4#4 =>
    if w.getLsbD 11 then .jsr (w.extractLsb' 0 11)
    else .jsrr (w.extractLsb' 9 2) (regField w 6) (w.extractLsb' 0 6)
  | 0x5#4 =>
    if w.getLsbD 5 then .andImm (regField w 9) (regField w 6) (w.extractLsb' 0 5)
    else .andReg (regField w 9) (regField w 6) (w.extractLsb' 3 2) (regField w 0)
  | 0x6#4 => .ldr (regField w 9) (regField w 6) (w.extractLsb' 0 6)
  | 0x7#4 => .str (regField w 9) (regField w 6) (w.extractLsb' 0 6)
  | 0x8#4 => .rti (w.extractLsb' 0 12)
  | 0x9#4 => .not (regField w 9) (regField w 6) (w.extractLsb' 0 6)
  | 0xA#4 => .ldi (regField w 9) (w.extractLsb' 0 9)
  | 0xB#4 => .sti (regField w 9) (w.extractLsb' 0 9)
  | 0xC#4 => .jmp (w.extractLsb' 9 3) (regField w 6) (w.extractLsb' 0 6)
  | 0xD#4 => .res (w.extractLsb' 0 12)
  | 0xE#4 => .lea (regField w 9) (w.extractLsb' 0 9)
  -- 0xF, the one value left
  | _ => decodeTrap (w.extractLsb' 8 4) (w.extractLsb' 0 8)

/-- A register number as its 3-bit field. -/
def regBits (r : Reg) : BitVec 3 := BitVec.ofFin r

/-- The word of an instruction, field by field from bit 15 down to bit 0 (R103, R104, R105). -/
def encode : Instr → Word
  | .addReg dr sr1 ign sr2 => 0x1#4 ++ regBits dr ++ regBits sr1 ++ 0#1 ++ ign ++ regBits sr2
  | .addImm dr sr1 imm5 => 0x1#4 ++ regBits dr ++ regBits sr1 ++ 1#1 ++ imm5
  | .andReg dr sr1 ign sr2 => 0x5#4 ++ regBits dr ++ regBits sr1 ++ 0#1 ++ ign ++ regBits sr2
  | .andImm dr sr1 imm5 => 0x5#4 ++ regBits dr ++ regBits sr1 ++ 1#1 ++ imm5
  | .not dr sr ign => 0x9#4 ++ regBits dr ++ regBits sr ++ ign
  | .br nzp off9 => 0x0#4 ++ nzp ++ off9
  | .jmp ignHi baseR ignLo => 0xC#4 ++ ignHi ++ regBits baseR ++ ignLo
  | .jsr off11 => 0x4#4 ++ 1#1 ++ off11
  | .jsrr ignHi baseR ignLo => 0x4#4 ++ 0#1 ++ ignHi ++ regBits baseR ++ ignLo
  | .ld dr off9 => 0x2#4 ++ regBits dr ++ off9
  | .ldi dr off9 => 0xA#4 ++ regBits dr ++ off9
  | .ldr dr baseR off6 => 0x6#4 ++ regBits dr ++ regBits baseR ++ off6
  | .lea dr off9 => 0xE#4 ++ regBits dr ++ off9
  | .st sr off9 => 0x3#4 ++ regBits sr ++ off9
  | .sti sr off9 => 0xB#4 ++ regBits sr ++ off9
  | .str sr baseR off6 => 0x7#4 ++ regBits sr ++ regBits baseR ++ off6
  | .trapGetc ign => 0xF#4 ++ ign ++ 0x20#8
  | .trapOut ign => 0xF#4 ++ ign ++ 0x21#8
  | .trapPuts ign => 0xF#4 ++ ign ++ 0x22#8
  | .trapIn ign => 0xF#4 ++ ign ++ 0x23#8
  | .trapPutsp ign => 0xF#4 ++ ign ++ 0x24#8
  | .trapHalt ign => 0xF#4 ++ ign ++ 0x25#8
  | .trapInvalid ign vector => 0xF#4 ++ ign ++ vector
  | .rti ign => 0x8#4 ++ ign
  | .res ign => 0xD#4 ++ ign

/-- The instruction the decoder reads from an instruction whose bits are `w`, numbered as
spec/opcode_table.json numbers them.  Every instruction is one 16-bit word (R100), so a longer one
is none. -/
def decodeTableWord (nbits w : Nat) : Option Instr :=
  if nbits ≤ 16 ∧ w < 65536 then some (decode (BitVec.ofNat 16 w)) else none

end Sys2Proof
end

