-- ==== Sys2Proof/Machine/Invalid.lean ====
section
/-! DEFINITION. The two invalid opcodes, RTI and RES (spec/44_invalid.md R240, R241): each ends the
run in FATAL. -/

namespace Sys2Proof.Machine

/-- RTI (R240). -/
def execRti (ign : BitVec 12) (s : State) : Result :=
  .next (s.raiseFatal (.invalidOpcode 0x8) (encode (.rti ign)))

/-- RES (R241). -/
def execRes (ign : BitVec 12) (s : State) : Result :=
  .next (s.raiseFatal (.invalidOpcode 0xD) (encode (.res ign)))

end Sys2Proof.Machine
end

