-- ==== Sys2Proof/Machine/LoadStore.lean ====
section
/-! DEFINITION. LD, LDI, LDR, LEA, ST, STI and STR (spec/42_load_store.md R181 to R187).  PC is the
incremented value; every data and pointer read goes through the adapter (decision D8, DESIGN CHOICE,
notes/assumptions/9.md). -/

namespace Sys2Proof.Machine

/-- `x[DR] <- MemRead(ea, 1); setcc(x[DR])` (R181 to R183). -/
def State.loadFrom (s : State) (dr : Reg) (ea : Word) : State :=
  (s.memRead ea).2.writeResult dr (s.memRead ea).1

/-- LD (R181). -/
def execLd (dr : Reg) (off9 : BitVec 9) (s : State) : Result :=
  .next (s.loadFrom dr (s.pcRelative off9))

/-- LDI (R182): the pointer read, then the data read. -/
def execLdi (dr : Reg) (off9 : BitVec 9) (s : State) : Result :=
  .next ((s.indirect off9).2.loadFrom dr (s.indirect off9).1)

/-- LDR (R183). -/
def execLdr (dr baseR : Reg) (off6 : BitVec 6) (s : State) : Result :=
  .next (s.loadFrom dr (s.baseOffset baseR off6))

/-- LEA (R184): the address itself, no memory access; it updates flags. -/
def execLea (dr : Reg) (off9 : BitVec 9) (s : State) : Result :=
  .next (s.writeResult dr (s.pcRelative off9))

/-- ST (R185). -/
def execSt (sr : Reg) (off9 : BitVec 9) (s : State) : Result :=
  .next (s.memWrite (s.pcRelative off9) (s.reg sr))

/-- STI (R186): the pointer read, then the store. -/
def execSti (sr : Reg) (off9 : BitVec 9) (s : State) : Result :=
  .next ((s.indirect off9).2.memWrite (s.indirect off9).1 ((s.indirect off9).2.reg sr))

/-- STR (R187). -/
def execStr (sr baseR : Reg) (off6 : BitVec 6) (s : State) : Result :=
  .next (s.memWrite (s.baseOffset baseR off6) (s.reg sr))

end Sys2Proof.Machine
end

