-- ==== Sys2Proof/Machine/Operate.lean ====
section
/-! DEFINITION. ADD, AND and NOT (spec/40_operate.md R140 to R144). -/

namespace Sys2Proof.Machine

/-- ADD, register mode (R140). -/
def execAddReg (dr sr1 sr2 : Reg) (s : State) : Result :=
  .next (s.writeResult dr (s.reg sr1 + s.reg sr2))

/-- ADD, immediate mode (R141). -/
def execAddImm (dr sr1 : Reg) (imm5 : BitVec 5) (s : State) : Result :=
  .next (s.writeResult dr (s.reg sr1 + sext imm5))

/-- AND, register mode (R142; decision D20, DESIGN CHOICE, notes/assumptions/21.md). -/
def execAndReg (dr sr1 sr2 : Reg) (s : State) : Result :=
  .next (s.writeResult dr (s.reg sr1 &&& s.reg sr2))

/-- AND, immediate mode (R143; decision D20, DESIGN CHOICE, notes/assumptions/21.md). -/
def execAndImm (dr sr1 : Reg) (imm5 : BitVec 5) (s : State) : Result :=
  .next (s.writeResult dr (s.reg sr1 &&& sext imm5))

/-- NOT (R144). -/
def execNot (dr sr : Reg) (s : State) : Result :=
  .next (s.writeResult dr (~~~ s.reg sr))

end Sys2Proof.Machine
end

