-- ==== Sys2Proof/Machine/Trap.lean ====
section
/-! DEFINITION. TRAP and its six built-in routines, and TRAP with an unrecognised vector
(spec/43_trap.md R210 to R218).  Every routine runs inside the TRAP's step, after R7 has taken the
return address (R210). -/

namespace Sys2Proof.Machine

/-- GETC (R212). -/
def execTrapGetc (s : State) : Result :=
  s.readCharThen s.enterTrap fun c t => (t.writeResult 0 c).returnFromTrap

/-- OUT (R213): R0's low byte, untranslated. -/
def execTrapOut (s : State) : Result :=
  (s.enterTrap.writeChars [lowByte (s.enterTrap.reg 0)]).returnFromTrap

/-- The routine of PUTS and PUTSP (R214, R216, R221): where a zero word exists, at most 65,536 words
are read; where none does, the routine never ends and writes the bytes of all 65,536 words over and
over (that the fault carries them: DESIGN CHOICE, notes/assumptions/24.md). -/
def State.writeString (s : State) (bytesOf : Word → List Byte) : Result :=
  match stringBytes bytesOf s.mem 65536 (s.reg 0) with
  | some bs => (s.writeChars bs).returnFromTrap
  | none => .fault (.stringNeverEnds s.io (stringOutput bytesOf s.mem (s.reg 0) 65536))

/-- PUTS (R214). -/
def execTrapPuts (s : State) : Result := s.enterTrap.writeString putsBytes

/-- IN (R215): prompt, read, echo, store; no line feed after the echo (decision D13, DESIGN CHOICE,
notes/assumptions/13.md). -/
def execTrapIn (s : State) : Result :=
  s.readCharThen (s.enterTrap.writeChars s.params.inPrompt) fun c t =>
    ((t.writeChars [lowByte c]).writeResult 0 c).returnFromTrap

/-- PUTSP (R216). -/
def execTrapPutsp (s : State) : Result := s.enterTrap.writeString putspBytes

/-- HALT (R217): the notice, the flush, then the run state HALTED. -/
def execTrapHalt (s : State) : Result :=
  .next { (s.enterTrap.writeChars s.params.haltNotice).flush with run := .halted }

/-- TRAP with a vector outside the six (R218): fatal, after the R7 write. -/
def execTrapInvalid (ign : BitVec 4) (vector : BitVec 8) (s : State) : Result :=
  .next (s.enterTrap.raiseFatal (.invalidTrapVector vector) (encode (.trapInvalid ign vector)))

end Sys2Proof.Machine
end

