-- ==== Sys2Proof/Machine/Dispatch.lean ====
section
/-! DEFINITION. The dispatcher: one handler per instruction (spec/30_encoding.md R123). -/

namespace Sys2Proof.Machine

/-- The execute phase: PC is already the instruction's address plus 1 (R34, R120). -/
def exec (i : Instr) (s : State) : Host.Outcome State Fault Refusal :=
  match i with
  | .addReg dr sr1 _ sr2 => Sys2Proof.Machine.execAddReg dr sr1 sr2 s
  | .addImm dr sr1 imm5 => Sys2Proof.Machine.execAddImm dr sr1 imm5 s
  | .andReg dr sr1 _ sr2 => Sys2Proof.Machine.execAndReg dr sr1 sr2 s
  | .andImm dr sr1 imm5 => Sys2Proof.Machine.execAndImm dr sr1 imm5 s
  | .not dr sr _ => Sys2Proof.Machine.execNot dr sr s
  | .br nzp off9 => Sys2Proof.Machine.execBr nzp off9 s
  | .jmp _ baseR _ => Sys2Proof.Machine.execJmp baseR s
  | .jsr off11 => Sys2Proof.Machine.execJsr off11 s
  | .jsrr _ baseR _ => Sys2Proof.Machine.execJsrr baseR s
  | .ld dr off9 => Sys2Proof.Machine.execLd dr off9 s
  | .ldi dr off9 => Sys2Proof.Machine.execLdi dr off9 s
  | .ldr dr baseR off6 => Sys2Proof.Machine.execLdr dr baseR off6 s
  | .lea dr off9 => Sys2Proof.Machine.execLea dr off9 s
  | .st sr off9 => Sys2Proof.Machine.execSt sr off9 s
  | .sti sr off9 => Sys2Proof.Machine.execSti sr off9 s
  | .str sr baseR off6 => Sys2Proof.Machine.execStr sr baseR off6 s
  | .trapGetc _ => Sys2Proof.Machine.execTrapGetc s
  | .trapOut _ => Sys2Proof.Machine.execTrapOut s
  | .trapPuts _ => Sys2Proof.Machine.execTrapPuts s
  | .trapIn _ => Sys2Proof.Machine.execTrapIn s
  | .trapPutsp _ => Sys2Proof.Machine.execTrapPutsp s
  | .trapHalt _ => Sys2Proof.Machine.execTrapHalt s
  | .trapInvalid ign vector => Sys2Proof.Machine.execTrapInvalid ign vector s
  | .rti ign => Sys2Proof.Machine.execRti ign s
  | .res ign => Sys2Proof.Machine.execRes ign s

end Sys2Proof.Machine
end

