-- ==== Sys2Proof/Machine/Step.lean ====
section
/-! DEFINITION. One step of the execution loop (spec/30_encoding.md R120), and the placing of an
instruction where the next step fetches it. -/

namespace Sys2Proof.Machine

/-- One step (R120): defined when the run state is RUNNING.  The host's abort may land at the step's
boundary (R262); otherwise the word at PC is fetched, PC moves past it, and the word's instruction
runs. -/
def step (s : State) : Host.Outcome State Fault Refusal :=
  match s.run with
  | .running =>
    if s.hostAbort = some .boundary then .next s.abortAtBoundary
    else exec (decode s.fetch.1) s.fetch.2
  | .halted => .fault .runHalted
  | .fatal _ => .fault .runFatal
  | .aborted => .fault .runAborted

/-- `s` with the instruction word `w` at PC, in a run state that takes steps and without an abort
asked for at this boundary (the fetch needs all three).  Every instruction is one word (R100).  At
PC = 0xFE00 no stored word is fetched as it stands, since the fetch polls first (R121;
notes/assumptions/26.md). -/
def State.withFetchWord (s : State) (_nbits w : Nat) : State :=
  { s with
    mem := s.mem.write s.pc (BitVec.ofNat 16 w)
    run := .running
    hostAbort := if s.hostAbort = some .boundary then none else s.hostAbort }

end Sys2Proof.Machine
end

