-- ==== Sys2Proof/WellFormed.lean ====
section
/-! DEFINITION. Which instructions stand for a word (spec/30_encoding.md R103, R105, R111).  Every
field's width is in its type; the one check left is that the invalid-vector instruction does not
carry a vector that names a routine. -/

namespace Sys2Proof

/-- An instruction that some word decodes to. -/
def Instr.wf : Instr → Bool
  | .trapInvalid _ vector => !(recognisedVectors.contains vector)
  | .addReg _ _ _ _ | .addImm _ _ _ | .andReg _ _ _ _ | .andImm _ _ _ | .not _ _ _ | .br _ _
  | .jmp _ _ _ | .jsr _ | .jsrr _ _ _ | .ld _ _ | .ldi _ _ | .ldr _ _ _ | .lea _ _ | .st _ _
  | .sti _ _ | .str _ _ _ | .trapGetc _ | .trapOut _ | .trapPuts _ | .trapIn _ | .trapPutsp _
  | .trapHalt _ | .rti _ | .res _ => true

end Sys2Proof
end

