-- ==== Sys2Proof/Safety.lean ====
section
/-! DEFINITION. What claims are stated in terms of: the invariant of a step boundary, what a step
keeps, which registers and flags an instruction writes (the tables of spec/10_state.md R31 and R39),
which words are illegal (spec/30_encoding.md R111), and the end of a run
(spec/70_reset_and_hazards.md R289). -/

namespace Sys2Proof.Machine

/-! ## The invariant of a step boundary -/

/-- COND is one of its three legal values (R37, R48). -/
def State.CondLegal (s : State) : Prop := s.cond = 0x0001 ∨ s.cond = 0x0002 ∨ s.cond = 0x0004

/-- The run has ended FATAL (R250): its registers and memory are not observable (R267). -/
def State.Fatal (s : State) : Prop := ∃ info, s.run = .fatal info

/-- What holds at every step boundary: COND is legal (R48), the memory's list is canonical, the
flushed bytes are a prefix of the trace (R73), and a HALTED machine has flushed all of it (R289).  Of
registers and memory after FATAL it says nothing (R267); a FATAL run has no further step. -/
structure State.Inv (s : State) : Prop where
  cond_legal : ¬ s.Fatal → s.CondLegal
  mem_wf : ¬ s.Fatal → s.mem.wf = true
  flushed_le : s.io.flushed ≤ s.io.output.length
  halted_flushed : s.run = .halted → s.io.flushed = s.io.output.length

/-! ## What a step keeps -/

/-- Every general register but those named is as before. -/
def RegsKept (written : List Reg) (s t : State) : Prop :=
  ∀ r, r ∉ written → t.reg r = s.reg r

/-- Every word of memory but those at the addresses named reads as before. -/
def MemoryKept (stored : List Word) (s t : State) : Prop :=
  ∀ a, a ∉ stored → t.mem.read a = s.mem.read a

/-- The run state, the terminal, the host's request and the parameters are as before. -/
structure OutsideKept (s t : State) : Prop where
  run : t.run = s.run
  io : t.io = s.io
  hostAbort : t.hostAbort = s.hostAbort
  params : t.params = s.params

/-- `t` is `s` with `v` in register `dr` and COND set from `v` (R39); nothing else differs. -/
structure ResultIn (dr : Reg) (v : Word) (s t : State) : Prop where
  value : t.reg dr = v
  flags : t.cond = condOf v
  regs : RegsKept [dr] s t
  pc : t.pc = s.pc
  memory : MemoryKept [] s t
  outside : OutsideKept s t

/-- `t` is `s` with `v` stored at address `a`; nothing else differs. -/
structure StoredAt (a v : Word) (s t : State) : Prop where
  stored : t.mem.read a = v
  memory : MemoryKept [a] s t
  regs : RegsKept [] s t
  pc : t.pc = s.pc
  cond : t.cond = s.cond
  outside : OutsideKept s t

/-- `t` differs from `s` in nothing but the general registers named, COND, the run state and the
terminal. -/
structure TrapKept (written : List Reg) (s t : State) : Prop where
  regs : RegsKept written s t
  pc : t.pc = s.pc
  memory : MemoryKept [] s t
  hostAbort : t.hostAbort = s.hostAbort
  params : t.params = s.params

/-- `t` is `s` ended ABORTED inside the step whose execute phase began in `s`, with the output trace
`out` (R262): registers, flags and memory as at the step's start, where PC was one less. -/
structure AbortedInStep (out : List Byte) (s t : State) : Prop where
  run : t.run = .aborted
  regs : RegsKept [] s t
  pc : t.pc = s.pc - 1
  cond : t.cond = s.cond
  memory : MemoryKept [] s t
  io : t.io = { s.io with output := out }

/-! ## Which instruction writes what -/

end Sys2Proof.Machine

namespace Sys2Proof

/-- The general registers an instruction writes (R31, R220; R218 for an unrecognised vector). -/
def Instr.regsWritten : Instr → List Reg
  | .addReg dr _ _ _ | .addImm dr _ _ | .andReg dr _ _ _ | .andImm dr _ _ | .not dr _ _ => [dr]
  | .ld dr _ | .ldi dr _ | .ldr dr _ _ | .lea dr _ => [dr]
  | .br _ _ | .jmp _ _ _ | .st _ _ | .sti _ _ | .str _ _ _ | .rti _ | .res _ => []
  | .jsr _ | .jsrr _ _ _ => [7]
  | .trapGetc _ | .trapIn _ => [7, 0]
  | .trapOut _ | .trapPuts _ | .trapPutsp _ | .trapHalt _ | .trapInvalid _ _ => [7]

/-- The register whose written value an instruction sets COND from; none where it never writes COND
(R39). -/
def Instr.condFrom : Instr → Option Reg
  | .addReg dr _ _ _ | .addImm dr _ _ | .andReg dr _ _ _ | .andImm dr _ _ | .not dr _ _ => some dr
  | .ld dr _ | .ldi dr _ | .ldr dr _ _ | .lea dr _ => some dr
  | .trapGetc _ | .trapIn _ => some 0
  | .br _ _ | .jmp _ _ _ | .jsr _ | .jsrr _ _ _ | .st _ _ | .sti _ _ | .str _ _ _ => none
  | .trapOut _ | .trapPuts _ | .trapPutsp _ | .trapHalt _ | .trapInvalid _ _ => none
  | .rti _ | .res _ => none

/-- The opcode value of each instruction (R104). -/
def Instr.opcode : Instr → BitVec 4
  | .br _ _ => 0x0
  | .addReg _ _ _ _ | .addImm _ _ _ => 0x1
  | .ld _ _ => 0x2
  | .st _ _ => 0x3
  | .jsr _ | .jsrr _ _ _ => 0x4
  | .andReg _ _ _ _ | .andImm _ _ _ => 0x5
  | .ldr _ _ _ => 0x6
  | .str _ _ _ => 0x7
  | .rti _ => 0x8
  | .not _ _ _ => 0x9
  | .ldi _ _ => 0xA
  | .sti _ _ => 0xB
  | .jmp _ _ _ => 0xC
  | .res _ => 0xD
  | .lea _ _ => 0xE
  | .trapGetc _ | .trapOut _ | .trapPuts _ | .trapIn _ | .trapPutsp _ | .trapHalt _
  | .trapInvalid _ _ => 0xF

/-- The bits of a word that some rule reads, as a mask; R110 lists the others (RTI, RES and a TRAP
with an unrecognised vector keep every bit, since R252 records their word). -/
def readMask (w : Word) : Word :=
  if opcodeField w = 0x1 ∨ opcodeField w = 0x5 then (if w.getLsbD 5 then 0xFFFF else 0xFFE7)
  else if opcodeField w = 0x9 then 0xFFC0
  else if opcodeField w = 0xC then 0xF1C0
  else if opcodeField w = 0x4 then (if w.getLsbD 11 then 0xFFFF else 0xF9C0)
  else if opcodeField w = 0xF ∧ recognisedVectors.contains (w.extractLsb' 0 8) then 0xF0FF
  else 0xFFFF

/-- The words R111 calls illegal. -/
def IllegalWord (w : Word) : Prop :=
  opcodeField w = 0x8 ∨ opcodeField w = 0xD ∨
    (opcodeField w = 0xF ∧ w.extractLsb' 0 8 ∉ recognisedVectors)

end Sys2Proof

namespace Sys2Proof.Machine

/-! ## The end of a run -/

/-- An output the terminal may show: a prefix of the trace that holds every flushed byte (R73,
R289). -/
def State.MayShow (s : State) (shown : List Byte) : Prop :=
  shown <+: s.io.output ∧ s.io.flushed ≤ shown.length

/-- The `k`-th byte of what a step that never completes has written and goes on to write: the trace,
and after it, for a string without an end, the period over and over (R219, R221; notes/assumptions/17.md,
24.md).  A step that is not taken writes nothing. -/
def Fault.outputByte : Fault → Nat → Option Byte
  | .readNeverCompletes io, k => io.output[k]?
  | .stringNeverEnds io period, k =>
    if k < io.output.length then io.output[k]?
    else period[(k - io.output.length) % period.length]?
  | .runHalted, _ | .runFatal, _ | .runAborted, _ => none

/-- The step writes without end: after `before`, the bytes of each word of the walk in turn (R221). -/
structure Fault.WritesForever (f : Fault) (before : List Byte) (bytesOfWord : Nat → List Byte) :
    Prop where
  endless : ∀ k, (f.outputByte k).isSome = true
  inOrder : ∀ n k, k < (before ++ (List.range n).flatMap bytesOfWord).length →
    f.outputByte k = (before ++ (List.range n).flatMap bytesOfWord)[k]?

/-- Some number of steps from `s` reaches HALTED (R250: what a claim that a program halts means). -/
def State.ReachesHalted (s : State) : Prop :=
  ∃ n t, Host.Core.run Sys2Proof.core n s = .next t ∧ t.run = .halted

end Sys2Proof.Machine
end

