-- ==== Sys2Proof/Certificates/Slice0/Obligations.lean ====
section
/-! DEFINITION. The statements for the provers, from the numbered rules of spec/.  Where a statement
names an opcode or a trap vector by its number, the number is spec/30_encoding.md R104's or R105's,
which the spec marks as general knowledge (notes/assumptions/1.md, 2.md).  `s` in a statement about
`exec` is the state in which the execute phase begins: PC is the instruction's address plus 1
(R34). -/

open Sys2Proof Sys2Proof.Machine

/-! ## Encoding -/

/-- The encoder and the decoder are inverse to each other: every well-formed instruction is read back
from its word with every operand, and every word is some well-formed instruction's (R100, R103,
R116). -/
def Obligations.DecodeAndEncodeAgree : Prop :=
  (∀ i : Instr, i.wf = true → decode (encode i) = i) ∧
  ∀ w : Word, (decode w).wf = true ∧ encode (decode w) = w

/-- Words of spec/95_test_vectors.md and the instructions it prints for them. -/
def Obligations.SpecWordsDecodeAsPrinted : Prop :=
  decode 0x1042 = .addReg 0 1 0 2 ∧ decode 0x107D = .addImm 0 1 0x1D ∧
  decode 0x5642 = .andReg 3 1 0 2 ∧ decode 0x5020 = .andImm 0 0 0 ∧
  decode 0x92BF = .not 1 2 0x3F ∧ decode 0x0C05 = .br 0b110 5 ∧ decode 0xC1C0 = .jmp 0 7 0 ∧
  decode 0x4810 = .jsr 16 ∧ decode 0x4080 = .jsrr 0 2 0 ∧ decode 0x2002 = .ld 0 2 ∧
  decode 0xA201 = .ldi 1 1 ∧ decode 0x64FF = .ldr 2 3 0x3F ∧ decode 0xE3FF = .lea 1 0x1FF ∧
  decode 0x33FE = .st 1 0x1FE ∧ decode 0xB203 = .sti 1 3 ∧ decode 0x7942 = .str 4 5 2 ∧
  decode 0xF020 = .trapGetc 0 ∧ decode 0xF021 = .trapOut 0 ∧ decode 0xF022 = .trapPuts 0 ∧
  decode 0xF023 = .trapIn 0 ∧ decode 0xF024 = .trapPutsp 0 ∧ decode 0xFF25 = .trapHalt 0xF ∧
  decode 0xF026 = .trapInvalid 0 0x26 ∧ decode 0x8FFF = .rti 0xFFF ∧ decode 0xD123 = .res 0x123

/-- R110 (decision D7, notes/assumptions/8.md): two words that differ only in ignored bits execute
identically in every state.  A TRAP with an unrecognised vector is left out, since the fatal error
records its whole word (R252). -/
def Obligations.IgnoredBitsHaveNoEffect : Prop :=
  ∀ w w' : Word, w &&& readMask w = w' &&& readMask w →
    ∀ s, exec (decode w) s = exec (decode w') s

/-- R111, R251, R252: from RUNNING, an instruction ends the run in FATAL exactly when its word is
illegal, with the cause, the word and the address the rules name. -/
def Obligations.FatalExactlyForIllegalWords : Prop :=
  ∀ (w : Word) (s t : State), s.run = .running → exec (decode w) s = .next t →
    ((∃ info, t.run = .fatal info) ↔ IllegalWord w) ∧
    ∀ info, t.run = .fatal info → info.word = w ∧ info.address = s.pc - 1 ∧
      info.cause = (if opcodeField w = 0xF then .invalidTrapVector (w.extractLsb' 0 8)
        else .invalidOpcode (opcodeField w))

/-- R15: sign extension of the low N bits of a word, for the four widths. -/
def Obligations.SignExtensionOfLowBits : Prop :=
  ∀ n, n = 5 ∨ n = 6 ∨ n = 9 ∨ n = 11 → ∀ v : Word,
    (sext (v.setWidth n) = if v.getLsbD (n - 1) then (v.setWidth n).setWidth 16 ||| 0xFFFF <<< n
      else (v.setWidth n).setWidth 16) ∧
    ∀ k, k < 16 → (sext (v.setWidth n)).getLsbD k = v.getLsbD (if k < n then k else n - 1)

/-! ## The flags -/

/-- R38: `setcc` overwrites COND with the one flag of the value and touches nothing else. -/
def Obligations.SetccSelectsOneFlag : Prop :=
  ∀ (s : State) (v : Word),
    (s.setcc v).cond = (if v = 0x0000 then 0x0002 else if v.getLsbD 15 then 0x0004 else 0x0001) ∧
    (s.setcc v).regs = s.regs ∧ (s.setcc v).pc = s.pc ∧ (s.setcc v).mem = s.mem ∧
    OutsideKept s (s.setcc v)

/-- R45: the register file's operations; `update_flags` is idempotent on an unchanged register and
leaves exactly one flag bit set. -/
def Obligations.RegisterFileOperations : Prop :=
  ∀ (s : State) (r q : Reg) (v : Word),
    (s.setReg r v).reg q = (if q = r then v else s.reg q) ∧
    (s.setReg r v).pc = s.pc ∧ (s.setReg r v).cond = s.cond ∧
    (s.setcc (s.reg r)).setcc ((s.setcc (s.reg r)).reg r) = s.setcc (s.reg r) ∧
    (s.setcc (s.reg r)).CondLegal

/-- R39: an instruction that completes sets COND from the value it wrote to its destination if it is
one of the listed writers, and leaves COND alone otherwise.  (A GETC or IN that the host aborts
writes nothing, R262; of COND after FATAL nothing is claimed, R267.) -/
def Obligations.CondWrittenOnlyByListedInstructions : Prop :=
  ∀ (i : Instr) (s t : State), exec i s = .next t → t.run ≠ .aborted → ¬ t.Fatal →
    (∀ r, i.condFrom = some r → t.cond = condOf (t.reg r)) ∧
    (i.condFrom = none → t.cond = s.cond)

/-- R40: only BR reads COND.  For every other instruction the outcome from a state that differs in
COND alone differs in COND alone, and COND itself either comes out the same or passes through; where
the run ends FATAL, the run state and the terminal are the same (R267: no more is claimed). -/
def Obligations.OnlyBranchReadsCond : Prop :=
  ∀ (i : Instr) (s : State) (c : Word), (∀ nzp off9, i ≠ .br nzp off9) →
    match exec i s, exec i { s with cond := c } with
    | .next t, .next t' =>
      t'.run = t.run ∧ t'.io = t.io ∧
        (¬ t.Fatal → t' = { t with cond := t'.cond } ∧
          (t'.cond = t.cond ∨ (t.cond = s.cond ∧ t'.cond = c)))
    | .fault f, .fault f' => f = f'
    | _, _ => False

/-- R48: COND is legal after reset, whatever the parameters, and every step keeps it legal (of COND after
FATAL nothing is claimed, R267; a FATAL run has no further step boundary). -/
def Obligations.CondStaysOneHot : Prop :=
  (∀ b p, (State.boot b p).CondLegal) ∧
  ∀ s t : State, s.CondLegal → step s = .next t → ¬ t.Fatal → t.CondLegal

/-! ## ADD, AND, NOT -/

/-- R140: ADD, register mode. -/
def Obligations.AddRegister : Prop :=
  (∀ w : Word, opcodeField w = 0b0001 → w.getLsbD 5 = false →
    decode w = .addReg (regField w 9) (regField w 6) (w.extractLsb' 3 2) (regField w 0)) ∧
  ∀ dr sr1 ign sr2 s, ∃ t, exec (.addReg dr sr1 ign sr2) s = .next t ∧
    ResultIn dr (s.reg sr1 + s.reg sr2) s t

/-- R141: ADD, immediate mode. -/
def Obligations.AddImmediate : Prop :=
  (∀ w : Word, opcodeField w = 0b0001 → w.getLsbD 5 = true →
    decode w = .addImm (regField w 9) (regField w 6) (w.extractLsb' 0 5)) ∧
  ∀ dr sr1 imm5 s, ∃ t, exec (.addImm dr sr1 imm5) s = .next t ∧
    ResultIn dr (s.reg sr1 + imm5.signExtend 16) s t

/-- R142 (decision D20, notes/assumptions/21.md): AND, register mode. -/
def Obligations.AndRegister : Prop :=
  (∀ w : Word, opcodeField w = 0b0101 → w.getLsbD 5 = false →
    decode w = .andReg (regField w 9) (regField w 6) (w.extractLsb' 3 2) (regField w 0)) ∧
  ∀ dr sr1 ign sr2 s, ∃ t, exec (.andReg dr sr1 ign sr2) s = .next t ∧
    ResultIn dr (s.reg sr1 &&& s.reg sr2) s t

/-- R143 (decision D20, notes/assumptions/21.md): AND, immediate mode. -/
def Obligations.AndImmediate : Prop :=
  (∀ w : Word, opcodeField w = 0b0101 → w.getLsbD 5 = true →
    decode w = .andImm (regField w 9) (regField w 6) (w.extractLsb' 0 5)) ∧
  ∀ dr sr1 imm5 s, ∃ t, exec (.andImm dr sr1 imm5) s = .next t ∧
    ResultIn dr (s.reg sr1 &&& imm5.signExtend 16) s t

/-- R144: NOT, the complement, which is the exclusive or with 0xFFFF. -/
def Obligations.NotComplements : Prop :=
  (∀ w : Word, opcodeField w = 0b1001 →
    decode w = .not (regField w 9) (regField w 6) (w.extractLsb' 0 6)) ∧
  ∀ dr sr ign s, ∃ t, exec (.not dr sr ign) s = .next t ∧ ResultIn dr (s.reg sr ^^^ 0xFFFF) s t

/-- R145: ADD is the sum modulo 2^16, the two's-complement sum whenever that fits, and otherwise the
wrapped value, with no trap and no flag beyond `setcc` of it. -/
def Obligations.AddWrapsWithoutTrap : Prop :=
  ∀ dr sr1 (s : State),
    (∀ ign sr2, ∃ t, exec (.addReg dr sr1 ign sr2) s = .next t ∧ t.run = s.run ∧
      t.cond = condOf (t.reg dr) ∧
      (t.reg dr).toNat = ((s.reg sr1).toNat + (s.reg sr2).toNat) % 65536 ∧
      (-32768 ≤ (s.reg sr1).toInt + (s.reg sr2).toInt →
        (s.reg sr1).toInt + (s.reg sr2).toInt ≤ 32767 →
        (t.reg dr).toInt = (s.reg sr1).toInt + (s.reg sr2).toInt)) ∧
    (∀ imm5 : BitVec 5, ∃ t, exec (.addImm dr sr1 imm5) s = .next t ∧ t.run = s.run ∧
      t.cond = condOf (t.reg dr) ∧
      (t.reg dr).toNat = ((s.reg sr1).toNat + (imm5.signExtend 16).toNat) % 65536 ∧
      (-32768 ≤ (s.reg sr1).toInt + imm5.toInt → (s.reg sr1).toInt + imm5.toInt ≤ 32767 →
        (t.reg dr).toInt = (s.reg sr1).toInt + imm5.toInt))

/-- R147: the register form and the immediate form agree when the register holds the immediate. -/
def Obligations.ImmediateAndRegisterModesAgree : Prop :=
  ∀ dr sr1 ign sr2 imm5 (s : State), s.reg sr2 = sext imm5 →
    exec (.addReg dr sr1 ign sr2) s = exec (.addImm dr sr1 imm5) s ∧
    exec (.andReg dr sr1 ign sr2) s = exec (.andImm dr sr1 imm5) s

/-! ## BR, JMP, JSR, JSRR -/

/-- R160: BR is taken when some flag it names is the flag set in COND; nzp = 111 always branches from
a legal COND, nzp = 000 never does; nothing but PC changes. -/
def Obligations.BranchOnMatchingFlag : Prop :=
  (∀ w : Word, opcodeField w = 0b0000 → decode w = .br (w.extractLsb' 9 3) (w.extractLsb' 0 9)) ∧
  ∀ (nzp : BitVec 3) (off9 : BitVec 9) (s : State), ∃ t, exec (.br nzp off9) s = .next t ∧
    t.pc = (if (nzp.getLsbD 2 && s.cond.getLsbD 2) || (nzp.getLsbD 1 && s.cond.getLsbD 1) ||
      (nzp.getLsbD 0 && s.cond.getLsbD 0) then s.pc + off9.signExtend 16 else s.pc) ∧
    (nzp = 0b111 → s.CondLegal → t.pc = s.pc + off9.signExtend 16) ∧
    (nzp = 0b000 → t.pc = s.pc) ∧
    RegsKept [] s t ∧ t.cond = s.cond ∧ MemoryKept [] s t ∧ OutsideKept s t

/-- R161: JMP, and RET as JMP R7. -/
def Obligations.JumpThroughRegister : Prop :=
  (∀ w : Word, opcodeField w = 0b1100 →
    decode w = .jmp (w.extractLsb' 9 3) (regField w 6) (w.extractLsb' 0 6)) ∧
  ∀ ignHi baseR ignLo s, ∃ t, exec (.jmp ignHi baseR ignLo) s = .next t ∧
    t.pc = s.reg baseR ∧ RegsKept [] s t ∧ t.cond = s.cond ∧ MemoryKept [] s t ∧ OutsideKept s t

/-- R162: JSR. -/
def Obligations.CallPcRelative : Prop :=
  (∀ w : Word, opcodeField w = 0b0100 → w.getLsbD 11 = true →
    decode w = .jsr (w.extractLsb' 0 11)) ∧
  ∀ (off11 : BitVec 11) s, ∃ t, exec (.jsr off11) s = .next t ∧
    t.reg 7 = s.pc ∧ t.pc = s.pc + off11.signExtend 16 ∧
    RegsKept [7] s t ∧ t.cond = s.cond ∧ MemoryKept [] s t ∧ OutsideKept s t

/-- R163 (decision D17, notes/assumptions/18.md): JSRR.  R7 is written before BaseR is read, so
JSRR R7 goes on at the return address, unless the parameter `JSRR_READ_BASE_FIRST` is set. -/
def Obligations.CallThroughRegister : Prop :=
  (∀ w : Word, opcodeField w = 0b0100 → w.getLsbD 11 = false →
    decode w = .jsrr (w.extractLsb' 9 2) (regField w 6) (w.extractLsb' 0 6)) ∧
  ∀ ignHi baseR ignLo s, ∃ t, exec (.jsrr ignHi baseR ignLo) s = .next t ∧
    t.reg 7 = s.pc ∧
    t.pc = (if baseR = 7 ∧ s.params.jsrrReadBaseFirst = false then s.pc else s.reg baseR) ∧
    RegsKept [7] s t ∧ t.cond = s.cond ∧ MemoryKept [] s t ∧ OutsideKept s t

/-! ## Loads, stores, LEA -/

/-- R181 (decision D8, notes/assumptions/9.md): LD reads through the adapter at PC + offset. -/
def Obligations.LoadPcRelative : Prop :=
  (∀ w : Word, opcodeField w = 0b0010 → decode w = .ld (regField w 9) (w.extractLsb' 0 9)) ∧
  ∀ dr (off9 : BitVec 9) (s : State), ∃ t, exec (.ld dr off9) s = .next t ∧
    ResultIn dr (s.memRead (s.pc + off9.signExtend 16)).1
      (s.memRead (s.pc + off9.signExtend 16)).2 t ∧
    (s.pc + off9.signExtend 16 ≠ 0xFE00 →
      ResultIn dr (s.mem.read (s.pc + off9.signExtend 16)) s t) ∧
    RegsKept [dr] s t ∧ t.pc = s.pc ∧ MemoryKept [0xFE00, 0xFE02] s t

/-- R182 (decision D8, notes/assumptions/9.md): LDI reads the pointer at PC + offset and then the
data, both through the adapter. -/
def Obligations.LoadIndirect : Prop :=
  (∀ w : Word, opcodeField w = 0b1010 → decode w = .ldi (regField w 9) (w.extractLsb' 0 9)) ∧
  ∀ dr (off9 : BitVec 9) (s : State), ∃ t, exec (.ldi dr off9) s = .next t ∧
    (∀ p r, s.memRead (s.pc + off9.signExtend 16) = (p, r) →
      ResultIn dr (r.memRead p).1 (r.memRead p).2 t) ∧
    (s.pc + off9.signExtend 16 ≠ 0xFE00 → s.mem.read (s.pc + off9.signExtend 16) ≠ 0xFE00 →
      ResultIn dr (s.mem.read (s.mem.read (s.pc + off9.signExtend 16))) s t) ∧
    RegsKept [dr] s t ∧ t.pc = s.pc ∧ MemoryKept [0xFE00, 0xFE02] s t

/-- R183 (decision D8, notes/assumptions/9.md): LDR reads through the adapter at BaseR + offset; BaseR
is read before DR is written. -/
def Obligations.LoadBaseOffset : Prop :=
  (∀ w : Word, opcodeField w = 0b0110 →
    decode w = .ldr (regField w 9) (regField w 6) (w.extractLsb' 0 6)) ∧
  ∀ dr baseR (off6 : BitVec 6) (s : State), ∃ t, exec (.ldr dr baseR off6) s = .next t ∧
    ResultIn dr (s.memRead (s.reg baseR + off6.signExtend 16)).1
      (s.memRead (s.reg baseR + off6.signExtend 16)).2 t ∧
    (s.reg baseR + off6.signExtend 16 ≠ 0xFE00 →
      ResultIn dr (s.mem.read (s.reg baseR + off6.signExtend 16)) s t) ∧
    RegsKept [dr] s t ∧ t.pc = s.pc ∧ MemoryKept [0xFE00, 0xFE02] s t

/-- R184: LEA writes the address itself, with no memory access, and updates the flags. -/
def Obligations.LoadEffectiveAddress : Prop :=
  (∀ w : Word, opcodeField w = 0b1110 → decode w = .lea (regField w 9) (w.extractLsb' 0 9)) ∧
  ∀ dr (off9 : BitVec 9) s, ∃ t, exec (.lea dr off9) s = .next t ∧
    ResultIn dr (s.pc + off9.signExtend 16) s t

/-- R185: ST. -/
def Obligations.StorePcRelative : Prop :=
  (∀ w : Word, opcodeField w = 0b0011 → decode w = .st (regField w 9) (w.extractLsb' 0 9)) ∧
  ∀ sr (off9 : BitVec 9) s, ∃ t, exec (.st sr off9) s = .next t ∧
    StoredAt (s.pc + off9.signExtend 16) (s.reg sr) s t

/-- R186 (decision D8, notes/assumptions/9.md): STI reads the pointer through the adapter and then
stores; only a pointer at 0xFE00 changes anything else (the poll of R64). -/
def Obligations.StoreIndirect : Prop :=
  (∀ w : Word, opcodeField w = 0b1011 → decode w = .sti (regField w 9) (w.extractLsb' 0 9)) ∧
  ∀ sr (off9 : BitVec 9) (s : State), ∃ t, exec (.sti sr off9) s = .next t ∧
    (∀ p r, s.memRead (s.pc + off9.signExtend 16) = (p, r) → StoredAt p (s.reg sr) r t ∧
      MemoryKept [p, 0xFE00, 0xFE02] s t) ∧
    (s.pc + off9.signExtend 16 ≠ 0xFE00 →
      StoredAt (s.mem.read (s.pc + off9.signExtend 16)) (s.reg sr) s t) ∧
    RegsKept [] s t ∧ t.pc = s.pc ∧ t.cond = s.cond

/-- R187: STR. -/
def Obligations.StoreBaseOffset : Prop :=
  (∀ w : Word, opcodeField w = 0b0111 →
    decode w = .str (regField w 9) (regField w 6) (w.extractLsb' 0 6)) ∧
  ∀ sr baseR (off6 : BitVec 6) s, ∃ t, exec (.str sr baseR off6) s = .next t ∧
    StoredAt (s.reg baseR + off6.signExtend 16) (s.reg sr) s t

/-! ## TRAP -/

/-- R212, R72, R219 (decisions D11, D16, D18, D22; notes/assumptions/12.md, 17.md, 19.md, 23.md):
GETC, with a byte, at the end of the input under each `EOF_POLICY`, and aborted by the host.  The
model's own choices (DESIGN CHOICE), of which the rules say nothing: under `EOF_POLICY = value(v)` R0
takes the whole word v, so that COND may be N although R212 says that it never is for a byte, and a read
that never completes carries the terminal's side (log 17); an abort asked for in the read is taken even
where a byte is already there (log 19). -/
def Obligations.GetcReadsOneCharacter : Prop :=
  (∀ w : Word, opcodeField w = 0b1111 → w.extractLsb' 0 8 = 0x20 →
    decode w = .trapGetc (w.extractLsb' 8 4)) ∧
  ∀ ign (s : State),
    (s.hostAbort ≠ some .duringRead → ∀ c io, s.io.takeByte = some (c, io) →
      ∃ t, exec (.trapGetc ign) s = .next t ∧ t.reg 0 = c.setWidth 16 ∧ t.reg 7 = s.pc ∧
        t.cond = (if c = 0 then 0x0002 else 0x0001) ∧ t.io = io ∧ t.run = s.run ∧
        TrapKept [0, 7] s t) ∧
    (s.hostAbort ≠ some .duringRead → s.io.takeByte = none →
      ∀ v, s.params.eofPolicy = .value v →
        ∃ t, exec (.trapGetc ign) s = .next t ∧ t.reg 0 = v ∧ t.reg 7 = s.pc ∧
          t.cond = condOf v ∧ t.io = s.io ∧ t.run = s.run ∧ TrapKept [0, 7] s t) ∧
    (s.hostAbort ≠ some .duringRead → s.io.takeByte = none → s.params.eofPolicy = .stuck →
      exec (.trapGetc ign) s = .fault (.readNeverCompletes s.io)) ∧
    (s.hostAbort = some .duringRead →
      ∃ t, exec (.trapGetc ign) s = .next t ∧ AbortedInStep s.io.output s t)

/-- R213 (decision D12, notes/assumptions/14.md): OUT writes R0's low byte. -/
def Obligations.OutWritesLowByte : Prop :=
  (∀ w : Word, opcodeField w = 0b1111 → w.extractLsb' 0 8 = 0x21 →
    decode w = .trapOut (w.extractLsb' 8 4)) ∧
  ∀ ign s, ∃ t, exec (.trapOut ign) s = .next t ∧ t.reg 7 = s.pc ∧
    t.io = { s.io with output := s.io.output ++ [(s.reg 0).setWidth 8] } ∧
    t.cond = s.cond ∧ t.run = s.run ∧ TrapKept [7] s t

/-- R214 (decisions D9, D19; notes/assumptions/10.md, 20.md): PUTS writes the low byte of each word
from R0 on up to the first zero word, which it does not write. -/
def Obligations.PutsWritesStringUpToZeroWord : Prop :=
  (∀ w : Word, opcodeField w = 0b1111 → w.extractLsb' 0 8 = 0x22 →
    decode w = .trapPuts (w.extractLsb' 8 4)) ∧
  ∀ ign (s : State) (n : Nat), n < 65536 →
    (∀ k, k < n → s.mem.read (s.reg 0 + BitVec.ofNat 16 k) ≠ 0) →
    s.mem.read (s.reg 0 + BitVec.ofNat 16 n) = 0 →
    ∃ t, exec (.trapPuts ign) s = .next t ∧ t.reg 7 = s.pc ∧
      t.io = { s.io with
        output := s.io.output ++ (List.range n).map fun k =>
          (s.mem.read (s.reg 0 + BitVec.ofNat 16 k)).setWidth 8 } ∧
      t.cond = s.cond ∧ t.run = s.run ∧ TrapKept [7] s t

/-- R215, R72, R219 (decisions D11, D13, D16, D18, D22; notes/assumptions/12.md, 13.md, 17.md, 19.md,
23.md): IN writes the prompt, reads, echoes and stores.  The model's own choices (DESIGN CHOICE), of which
the rules say nothing: under `EOF_POLICY = value(v)` R0 takes the whole word v and the echo is its low
byte, and a read that never completes carries the trace with the prompt in it (log 17); an abort asked
for in the read is taken even where a byte is already there (log 19). -/
def Obligations.InPromptsReadsAndEchoes : Prop :=
  (∀ w : Word, opcodeField w = 0b1111 → w.extractLsb' 0 8 = 0x23 →
    decode w = .trapIn (w.extractLsb' 8 4)) ∧
  ∀ ign (s : State),
    (s.hostAbort ≠ some .duringRead → ∀ c io, s.io.takeByte = some (c, io) →
      ∃ t, exec (.trapIn ign) s = .next t ∧ t.reg 0 = c.setWidth 16 ∧ t.reg 7 = s.pc ∧
        t.cond = (if c = 0 then 0x0002 else 0x0001) ∧
        t.io = { io with output := s.io.output ++ s.params.inPrompt ++ [c] } ∧ t.run = s.run ∧
        TrapKept [0, 7] s t) ∧
    (s.hostAbort ≠ some .duringRead → s.io.takeByte = none →
      ∀ v, s.params.eofPolicy = .value v →
        ∃ t, exec (.trapIn ign) s = .next t ∧ t.reg 0 = v ∧ t.reg 7 = s.pc ∧
          t.cond = condOf v ∧ t.run = s.run ∧ TrapKept [0, 7] s t ∧
          t.io = { s.io with
            output := s.io.output ++ s.params.inPrompt ++ [v.setWidth 8] }) ∧
    (s.hostAbort ≠ some .duringRead → s.io.takeByte = none → s.params.eofPolicy = .stuck →
      exec (.trapIn ign) s = .fault (.readNeverCompletes
        { s.io with output := s.io.output ++ s.params.inPrompt })) ∧
    (s.hostAbort = some .duringRead →
      ∃ t, exec (.trapIn ign) s = .next t ∧
        AbortedInStep (s.io.output ++ s.params.inPrompt) s t)

/-- R216 (decisions D9, D19; notes/assumptions/10.md, 20.md): PUTSP writes each word's low byte, then
its high byte unless it is zero, up to the first zero word. -/
def Obligations.PutspWritesPackedString : Prop :=
  (∀ w : Word, opcodeField w = 0b1111 → w.extractLsb' 0 8 = 0x24 →
    decode w = .trapPutsp (w.extractLsb' 8 4)) ∧
  ∀ ign (s : State) (n : Nat), n < 65536 →
    (∀ k, k < n → s.mem.read (s.reg 0 + BitVec.ofNat 16 k) ≠ 0) →
    s.mem.read (s.reg 0 + BitVec.ofNat 16 n) = 0 →
    ∃ t, exec (.trapPutsp ign) s = .next t ∧ t.reg 7 = s.pc ∧
      t.io = { s.io with
        output := s.io.output ++ (List.range n).flatMap fun k =>
          (s.mem.read (s.reg 0 + BitVec.ofNat 16 k)).setWidth 8 ::
            (if (s.mem.read (s.reg 0 + BitVec.ofNat 16 k)).extractLsb' 8 8 = 0 then []
              else [(s.mem.read (s.reg 0 + BitVec.ofNat 16 k)).extractLsb' 8 8]) } ∧
      t.cond = s.cond ∧ t.run = s.run ∧ TrapKept [7] s t

/-- R221 (decision D19, notes/assumptions/20.md): PUTS and PUTSP end exactly when some word of memory is
zero; where none is, the step never completes and writes the bytes of the words from R0 on without
end.  That such a step is a fault that carries the output is the model's choice
(notes/assumptions/24.md). -/
def Obligations.StringRoutinesEndIffZeroWord : Prop :=
  ∀ ign (s : State),
    ((∃ t, exec (.trapPuts ign) s = .next t) ↔ ∃ a, s.mem.read a = 0) ∧
    ((∃ t, exec (.trapPutsp ign) s = .next t) ↔ ∃ a, s.mem.read a = 0) ∧
    ((∀ a, s.mem.read a ≠ 0) →
      (∃ period, exec (.trapPuts ign) s = .fault (.stringNeverEnds s.io period) ∧
        (Fault.stringNeverEnds s.io period).WritesForever s.io.output fun k =>
          [(s.mem.read (s.reg 0 + BitVec.ofNat 16 k)).setWidth 8]) ∧
      ∃ period, exec (.trapPutsp ign) s = .fault (.stringNeverEnds s.io period) ∧
        (Fault.stringNeverEnds s.io period).WritesForever s.io.output fun k =>
          (s.mem.read (s.reg 0 + BitVec.ofNat 16 k)).setWidth 8 ::
            (if (s.mem.read (s.reg 0 + BitVec.ofNat 16 k)).extractLsb' 8 8 = 0 then []
              else [(s.mem.read (s.reg 0 + BitVec.ofNat 16 k)).extractLsb' 8 8]))

/-- R217 (decision D13, notes/assumptions/13.md): HALT writes the notice, flushes the whole trace and
ends the run HALTED. -/
def Obligations.HaltNotifiesFlushesAndStops : Prop :=
  (∀ w : Word, opcodeField w = 0b1111 → w.extractLsb' 0 8 = 0x25 →
    decode w = .trapHalt (w.extractLsb' 8 4)) ∧
  ∀ ign s, ∃ t, exec (.trapHalt ign) s = .next t ∧ t.run = .halted ∧ t.reg 7 = s.pc ∧
    t.io = { s.io with
      output := s.io.output ++ s.params.haltNotice
      flushed := (s.io.output ++ s.params.haltNotice).length } ∧
    t.cond = s.cond ∧ TrapKept [7] s t

/-- R218, R250, R252, R267 (decision D21, notes/assumptions/22.md): a TRAP with any other vector is
fatal: the run ends FATAL with the record, no step follows, and the trace is as before.  Of registers
and memory after FATAL nothing is claimed (R267). -/
def Obligations.InvalidVectorIsFatal : Prop :=
  (∀ w : Word, opcodeField w = 0b1111 → w.extractLsb' 0 8 ∉ recognisedVectors →
    decode w = .trapInvalid (w.extractLsb' 8 4) (w.extractLsb' 0 8) ∧ encode (decode w) = w) ∧
  ∀ ign vector s, ∃ t, exec (.trapInvalid ign vector) s = .next t ∧
    t.run = .fatal { cause := .invalidTrapVector vector, word := encode (.trapInvalid ign vector),
                     address := s.pc - 1 } ∧
    t.io = s.io ∧ t.hostAbort = s.hostAbort ∧ t.params = s.params ∧ step t = .fault .runFatal

/-! ## RTI, RES -/

/-- R240, R250, R252, R267 (decision D21, notes/assumptions/22.md): RTI is fatal: the run ends FATAL
with the record, no step follows, and the trace is as before.  Of registers and memory after FATAL
nothing is claimed (R267). -/
def Obligations.RtiIsFatal : Prop :=
  (∀ w : Word, opcodeField w = 0b1000 →
    decode w = .rti (w.extractLsb' 0 12) ∧ encode (decode w) = w) ∧
  ∀ ign s, ∃ t, exec (.rti ign) s = .next t ∧
    t.run = .fatal { cause := .invalidOpcode 0x8, word := encode (.rti ign),
                     address := s.pc - 1 } ∧
    t.io = s.io ∧ t.hostAbort = s.hostAbort ∧ t.params = s.params ∧ step t = .fault .runFatal

/-- R241, R250, R252, R267 (decision D21, notes/assumptions/22.md): the reserved opcode is fatal: the
run ends FATAL with the record, no step follows, and the trace is as before.  Of registers and memory
after FATAL nothing is claimed (R267). -/
def Obligations.ReservedOpcodeIsFatal : Prop :=
  (∀ w : Word, opcodeField w = 0b1101 →
    decode w = .res (w.extractLsb' 0 12) ∧ encode (decode w) = w) ∧
  ∀ ign s, ∃ t, exec (.res ign) s = .next t ∧
    t.run = .fatal { cause := .invalidOpcode 0xD, word := encode (.res ign),
                     address := s.pc - 1 } ∧
    t.io = s.io ∧ t.hostAbort = s.hostAbort ∧ t.params = s.params ∧ step t = .fault .runFatal

/-! ## Memory, the keyboard, the terminal -/

/-- R66, R76: a read of any address but 0xFE00 is a pure lookup and changes nothing; a read of 0xFE00
can change the state. -/
def Obligations.OnlyKbsrReadHasSideEffect : Prop :=
  (∀ (s : State) (a : Word), a ≠ 0xFE00 → s.memRead a = (s.mem.read a, s)) ∧
  (∃ s : State, (s.memRead 0xFE00).2.io.inq ≠ s.io.inq ∧
    (s.memRead 0xFE00).2.mem.read 0xFE00 ≠ s.mem.read 0xFE00 ∧
    (s.memRead 0xFE00).2.mem.read 0xFE02 ≠ s.mem.read 0xFE02 ∧
    ((s.memRead 0xFE00).2.memRead 0xFE00).1 ≠ (s.memRead 0xFE00).1) ∧
  ∀ (s : State) (a v : Word), StoredAt a v s (s.memWrite a v)

/-- R64, R65 (decisions D10, D11; notes/assumptions/11.md, 12.md): a read of 0xFE00 polls.  With input
pending it takes one byte, and KBSR becomes 0x8000 and KBDR the byte; without, KBSR becomes 0 and
KBDR stays; the word returned is the new KBSR. -/
def Obligations.KbsrReadPollsKeyboard : Prop :=
  ∀ (s : State) (v : Word) (t : State), s.memRead 0xFE00 = (v, t) →
    RegsKept [] s t ∧ t.pc = s.pc ∧ t.cond = s.cond ∧ t.run = s.run ∧ t.hostAbort = s.hostAbort ∧
    t.params = s.params ∧ v = t.mem.read 0xFE00 ∧
    (s.io.poll.1 = true → ∃ c io, s.io.poll.2.takeByte = some (c, io) ∧ t.io = io ∧
      v = 0x8000 ∧ t.mem.read 0xFE02 = c.setWidth 16 ∧ MemoryKept [0xFE00, 0xFE02] s t) ∧
    (s.io.poll.1 = false → t.io = s.io.poll.2 ∧ v = 0x0000 ∧ MemoryKept [0xFE00] s t)

/-- R71, R72 (decisions D15, D16; notes/assumptions/15.md, 16.md, 17.md): `Poll()` is the next draw,
and true only if the input holds a byte; `ReadChar()` takes the head of the input. -/
def Obligations.TerminalPollAndRead : Prop :=
  (∀ io : Io, io.poll.1 = true → ∃ c io', io.poll.2.takeByte = some (c, io')) ∧
  (∀ (io : Io) b bs, io.polls = b :: bs → io.poll = (b && io.hasByte, { io with polls := bs })) ∧
  (∀ io : Io, io.polls = [] → io.poll =
    (Config.pollDraw io.draws && io.hasByte, { io with draws := io.draws + 1 })) ∧
  (∀ (io : Io) c cs, io.inq = c :: cs → io.takeByte = some (c, { io with inq := cs })) ∧
  (∀ io : Io, io.hasByte = false ↔ io.inq = [] ∧ io.tail = .ends) ∧
  ∀ io : Io, io.takeByte = none ↔ io.inq = [] ∧ io.tail = .ends

/-- R60, notes/assumptions/7.md (the model's choice of form): two memories in the canonical form that
read alike at every address are the same data. -/
def Obligations.EqualMemoriesAreEqualData : Prop :=
  ∀ m m' : Memory, m.wf = true → m'.wf = true → (∀ a : Word, m.read a = m'.read a) → m = m'

/-- R82, R79: a word stored anywhere but at 0xFE00 is the word the very next fetch from there reads,
and reads back until another write. -/
def Obligations.StoreIsSeenByNextFetch : Prop :=
  ∀ (s : State) (a v : Word), a ≠ 0xFE00 →
    ((s.memWrite a v).memRead a).1 = v ∧
    (∀ b u, b ≠ a → (((s.memWrite a v).memWrite b u).memRead a).1 = v) ∧
    (s.pc = a → (s.memWrite a v).fetch.1 = v)

/-- R283, R285: the loader writes the image's words from the origin on and nothing else, and refuses
exactly the images that would pass the end of the address space.  That the memory's list keeps its
canonical form is no rule of the spec: the form is the model's choice (DESIGN CHOICE,
notes/assumptions/7.md). -/
def Obligations.LoaderPlacesImageThatFits : Prop :=
  ∀ (s : State) (origin : Word) (image : List Word),
    (origin.toNat + image.length ≤ 65536 → ∃ t, s.loadImage origin image = some t ∧
      (∀ k (h : k < image.length), t.mem.read (origin + BitVec.ofNat 16 k) = image[k]) ∧
      (∀ a : Word, a.toNat < origin.toNat ∨ origin.toNat + image.length ≤ a.toNat →
        t.mem.read a = s.mem.read a) ∧
      (s.mem.wf = true → t.mem.wf = true) ∧
      RegsKept [] s t ∧ t.pc = s.pc ∧ t.cond = s.cond ∧ OutsideKept s t) ∧
    (65536 < origin.toNat + image.length → s.loadImage origin image = none)

/-! ## The step -/

/-- R120, R121, R122: a step of a running machine that the host does not abort fetches the word at PC
through the adapter, moves PC past it, and runs the instruction the word stands for. -/
def Obligations.StepRunsDecodedInstruction : Prop :=
  ∀ (s r : State) (w : Word) (i : Instr), s.run = .running → s.hostAbort ≠ some .boundary →
    s.memRead s.pc = (w, r) → decode w = i → step s = exec i { r with pc := s.pc + 1 }

/-- R121, R240, R112: a fetch from 0xFE00 polls; with input pending it is fatal, without it is a
no-op. -/
def Obligations.FetchFromKbsrPolls : Prop :=
  ∀ s : State, s.run = .running → s.hostAbort ≠ some .boundary → s.pc = 0xFE00 →
    (s.io.poll.1 = true → ∃ t, step s = .next t ∧
      t.run = .fatal { cause := .invalidOpcode 0x8, word := 0x8000, address := 0xFE00 }) ∧
    (s.io.poll.1 = false → ∃ t, step s = .next t ∧ t.pc = 0xFE01 ∧ t.run = .running ∧
      t.mem.read 0xFE00 = 0 ∧ MemoryKept [0xFE00] s t ∧ RegsKept [] s t ∧ t.cond = s.cond)

/-- R42, R124, R72, R221, R289: a run starts RUNNING; only RUNNING takes steps; HALTED is reached only
by HALT, FATAL only by RTI, RES or an unrecognised trap vector, ABORTED only by the host; and a running
machine that does not step on is blocked in a read or in a string without an end.  That no step follows
an ended run by a fault of its own name, and that a hang is a fault, are the model's reading
(notes/assumptions/22.md, DESIGN CHOICE; 24.md, DEDUCED). -/
def Obligations.RunLeavesRunningOnlyAsListed : Prop :=
  (∀ b p, (State.boot b p).run = .running) ∧
  (∀ s t : State, step s = .next t → s.run = .running ∧
    (t.run = .running ∨
      (t.run = .halted ∧ ∃ ign, decode s.fetch.1 = .trapHalt ign) ∨
      (∃ info, t.run = .fatal info ∧ ((∃ ign, decode s.fetch.1 = .rti ign) ∨
        (∃ ign, decode s.fetch.1 = .res ign) ∨
        ∃ ign vector, decode s.fetch.1 = .trapInvalid ign vector)) ∨
      (t.run = .aborted ∧ s.hostAbort ≠ none))) ∧
  ∀ s : State,
    (s.run = .halted → step s = .fault .runHalted) ∧
    (∀ info, s.run = .fatal info → step s = .fault .runFatal) ∧
    (s.run = .aborted → step s = .fault .runAborted) ∧
    (s.run = .running → (∃ t, step s = .next t) ∨
      (∃ io, step s = .fault (.readNeverCompletes io)) ∨
      ∃ io period, step s = .fault (.stringNeverEnds io period))

/-- R253, R72, R221: no instruction is refused, and the only instructions that do not complete are
GETC and IN where no byte will ever come under `EOF_POLICY = stuck`, and PUTS and PUTSP over a memory
without a zero word. -/
def Obligations.EveryInstructionCompletesOrHangs : Prop :=
  ∀ (i : Instr) (s : State),
    (∃ t, exec i s = .next t) ∨
    ((∃ io, exec i s = .fault (.readNeverCompletes io)) ∧ s.io.takeByte = none ∧
      s.params.eofPolicy = .stuck ∧ s.hostAbort ≠ some .duringRead ∧
      ((∃ ign, i = .trapGetc ign) ∨ ∃ ign, i = .trapIn ign)) ∨
    ((∃ io period, exec i s = .fault (.stringNeverEnds io period)) ∧ (∀ a, s.mem.read a ≠ 0) ∧
      ((∃ ign, i = .trapPuts ign) ∨ ∃ ign, i = .trapPutsp ign))

/-- R31, R32, R220: an instruction changes no general register but its destination and R7 or R0 where
the rules name them (of registers after FATAL nothing is claimed, R267). -/
def Obligations.OnlyListedRegistersWritten : Prop :=
  ∀ (i : Instr) (s t : State), exec i s = .next t → ¬ t.Fatal → RegsKept i.regsWritten s t

/-- R35: a step moves PC past the fetched word, and then only BR, JMP, JSR and JSRR write it (of PC after
FATAL nothing is claimed, R267). -/
def Obligations.PcWrittenOnlyByControlTransfer : Prop :=
  ∀ s t : State, step s = .next t → t.run ≠ .aborted → ¬ t.Fatal →
    (∀ nzp off9, decode s.fetch.1 ≠ .br nzp off9) →
    (∀ hi r lo, decode s.fetch.1 ≠ .jmp hi r lo) → (∀ off11, decode s.fetch.1 ≠ .jsr off11) →
    (∀ hi r lo, decode s.fetch.1 ≠ .jsrr hi r lo) → t.pc = s.pc + 1

/-- R67, R76, R220: a step changes a word of memory outside the keyboard's two cells only if its
instruction is ST, STI or STR (of memory after FATAL nothing is claimed, R267). -/
def Obligations.MemoryChangedOnlyByStores : Prop :=
  ∀ s t : State, step s = .next t → ¬ t.Fatal →
    (∀ r off9, decode s.fetch.1 ≠ .st r off9) → (∀ r off9, decode s.fetch.1 ≠ .sti r off9) →
    (∀ r b off6, decode s.fetch.1 ≠ .str r b off6) → MemoryKept [0xFE00, 0xFE02] s t

/-- R73: the output trace only grows, and so does its flushed part, from every state whose flushed
part lies inside the trace (an invariant, `StepKeepsInvariant`).  A step that never completes keeps
the trace too (R219, R221; that its fault carries the trace is the model's choice,
notes/assumptions/17.md, 24.md). -/
def Obligations.OutputOnlyGrows : Prop :=
  ∀ s : State,
    (∀ t, s.io.flushed ≤ s.io.output.length → step s = .next t →
      s.io.output <+: t.io.output ∧ s.io.flushed ≤ t.io.flushed) ∧
    (∀ io, step s = .fault (.readNeverCompletes io) →
      s.io.output <+: io.output ∧ io.flushed = s.io.flushed) ∧
    ∀ io period, step s = .fault (.stringNeverEnds io period) →
      io.output = s.io.output ∧ io.flushed = s.io.flushed

/-- R73, R289: after HALT the whole trace is visible, so the terminal shows the trace and nothing
else. -/
def Obligations.HaltedOutputIsWholeTrace : Prop :=
  ∀ s : State, s.Inv → s.run = .halted → ∀ shown, s.MayShow shown ↔ shown = s.io.output

/-- R262, R219 (decision D18, notes/assumptions/19.md): a step that the host aborts leaves the
registers, the flags and the memory as they were before it; bytes already written stay. -/
def Obligations.AbortDiscardsTheStep : Prop :=
  ∀ s t : State, step s = .next t → t.run = .aborted →
    s.hostAbort ≠ none ∧ RegsKept [] s t ∧ t.pc = s.pc ∧ t.cond = s.cond ∧ MemoryKept [] s t ∧
    s.io.output <+: t.io.output ∧ t.io.inq = s.io.inq

/-- R262 (decision D18, notes/assumptions/19.md): an abort at a step boundary ends the run ABORTED
before anything is fetched. -/
def Obligations.AbortAtBoundaryEndsRun : Prop :=
  ∀ s : State, s.run = .running → s.hostAbort = some .boundary → ∃ t, step s = .next t ∧
    t.run = .aborted ∧ RegsKept [] s t ∧ t.pc = s.pc ∧ t.cond = s.cond ∧ MemoryKept [] s t ∧
    t.io = s.io

/-- R10 (notes/assumptions/19.md, 25.md): no step writes the parameters or the host's request. -/
def Obligations.ParametersFixedForRun : Prop :=
  ∀ s t : State, step s = .next t → t.params = s.params ∧ t.hostAbort = s.hostAbort

/-- The invariant of a step boundary, kept by every step: COND legal (R48), the memory in canonical
form (the model's choice of form, notes/assumptions/7.md), the flushed part inside the trace (R73), and
the whole trace flushed once HALTED (R289).  Of COND and memory after FATAL it says nothing (R267). -/
def Obligations.StepKeepsInvariant : Prop :=
  ∀ s t : State, s.Inv → step s = .next t → t.Inv

/-- The invariant holds after reset for every value of the reset parameters whose memory is in the
canonical form, and so for the defaults. -/
def Obligations.ResetSatisfiesInvariant : Prop :=
  (∀ (b : Config.Boot) (p : Config.Params), Memory.wf b.memInit = true → (State.boot b p).Inv) ∧
    State.reset.Inv

/-- R280, R281 (decisions D4, D5, D6; the values of `State.reset` itself are the defaults of
notes/assumptions/4.md, 5.md, 6.md): the state after reset, for every value of the parameters. -/
def Obligations.ResetState : Prop :=
  (∀ (b : Config.Boot) (p : Config.Params),
    (State.boot b p).reg 0 = 0x0000 ∧
    (∀ k : Fin 7, (State.boot b p).reg k.succ = b.initGpr.get k) ∧
    (State.boot b p).pc = b.pcStart ∧ (State.boot b p).cond = 0x0002 ∧
    (∀ a, (State.boot b p).mem.read a = Memory.read b.memInit a) ∧
    (State.boot b p).run = .running ∧ (State.boot b p).io.output = [] ∧
    (State.boot b p).params = p) ∧
  (∀ r, State.reset.reg r = 0x0000) ∧ State.reset.pc = 0x3000 ∧
  ∀ a, State.reset.mem.read a = 0x0000
end

