-- ==== Sys2Proof/Laws/Memory.lean ====
section
/-! SUPPORT. The memory array: read after write, and the canonical form that every memory operation
keeps. -/

namespace Sys2Proof.Machine

/-! ## Read after write -/

theorem Memory.lookup_insert (m : Memory) (a b : Nat) (v : Word) :
    (m.insert a v).lookup b = if b = a then v else m.lookup b := by
  induction m with
  | nil => simp [Memory.insert, Memory.lookup]
  | cons c rest ih =>
    obtain ⟨k, w⟩ := c
    simp only [Memory.insert]
    split
    · simp [Memory.lookup]
    · split
      · rename_i _ h
        subst h
        by_cases hb : b = a <;> simp [Memory.lookup, hb]
      · simp only [Memory.lookup, ih]
        by_cases hb : b = k
        · simp only [hb, if_true]
          rw [if_neg (by omega)]
        · simp [hb]

theorem Memory.lookup_filter (m : Memory) (a b : Nat) :
    Memory.lookup (m.filter (fun c => c.1 != a)) b = if b = a then unlistedWord else m.lookup b := by
  induction m with
  | nil => simp [Memory.lookup]
  | cons c rest ih =>
    obtain ⟨k, w⟩ := c
    by_cases hk : k = a
    · subst hk
      rw [List.filter_cons_of_neg (by simp), ih]
      by_cases hb : b = k <;> simp [Memory.lookup, hb]
    · by_cases hb : b = k
      · subst hb; simp [Memory.lookup, hk]
      · simp [Memory.lookup, ih, hb, hk]

/-- A read after a write: the word written at its address, every other word as before (R67, R79). -/
theorem Memory.read_write (m : Memory) (a b v : Word) :
    (m.write a v).read b = if b = a then v else m.read b := by
  have hab : b.toNat = a.toNat ↔ b = a := BitVec.toNat_inj
  unfold Memory.write Memory.read
  split
  · simp_all [Memory.lookup_filter]
  · simp [Memory.lookup_insert, hab]

@[simp] theorem Memory.read_write_self (m : Memory) (a v : Word) : (m.write a v).read a = v := by
  simp [Memory.read_write]

theorem Memory.read_write_ne (m : Memory) {a b : Word} (v : Word) (h : b ≠ a) :
    (m.write a v).read b = m.read b := by simp [Memory.read_write, h]

/-- What the loader's writes leave at each address (R283). -/
theorem Memory.read_writeWords (m : Memory) (a b : Word) (vs : List Word)
    (hfit : a.toNat + vs.length ≤ 65536) :
    (m.writeWords a vs).read b =
      if a.toNat ≤ b.toNat then (vs[b.toNat - a.toNat]?).getD (m.read b) else m.read b := by
  induction vs generalizing m a with
  | nil => simp [Memory.writeWords]
  | cons v vs ih =>
    simp only [List.length_cons] at hfit
    rcases vs with _ | ⟨u, us⟩
    · simp only [Memory.writeWords, Memory.read_write]
      by_cases hb : b = a
      · simp [hb]
      · have hne : b.toNat ≠ a.toNat := fun e => hb (BitVec.toNat_inj.1 e)
        rw [if_neg hb]
        by_cases hle : a.toNat ≤ b.toNat
        · rw [if_pos hle, List.getElem?_eq_none (by simp only [List.length_singleton]; omega)]
          rfl
        · rw [if_neg hle]
    · have ha : (a + 1).toNat = a.toNat + 1 := by
        simp only [List.length_cons] at hfit
        rw [BitVec.toNat_add]
        exact Nat.mod_eq_of_lt (by simp; omega)
      rw [Memory.writeWords, ih _ _ (by omega), Memory.read_write, ha]
      by_cases hb : b = a
      · subst hb; simp
      · have hne : b.toNat ≠ a.toNat := fun e => hb (BitVec.toNat_inj.1 e)
        rw [if_neg hb]
        by_cases hle : a.toNat ≤ b.toNat
        · have hs : b.toNat - a.toNat = (b.toNat - (a.toNat + 1)) + 1 := by omega
          rw [if_pos (by omega), if_pos hle, hs, List.getElem?_cons_succ]
        · rw [if_neg (by omega), if_neg hle]

/-! ## The canonical form -/

theorem Memory.wfFrom_cons (lo k : Nat) (v : Word) (rest : Memory) :
    Memory.wfFrom lo ((k, v) :: rest) = true ↔
      lo ≤ k ∧ k < 65536 ∧ v ≠ unlistedWord ∧ Memory.wfFrom (k + 1) rest = true := by
  simp [Memory.wfFrom, and_assoc]

theorem Memory.wfFrom_mono {m : Memory} {lo lo' : Nat} (hle : lo' ≤ lo)
    (h : m.wfFrom lo = true) : m.wfFrom lo' = true := by
  cases m with
  | nil => rfl
  | cons c rest =>
    rw [Memory.wfFrom_cons] at h ⊢
    exact ⟨hle.trans h.1, h.2⟩

theorem Memory.wfFrom_insert {m : Memory} {lo a : Nat} {v : Word} (h : m.wfFrom lo = true)
    (hlo : lo ≤ a) (ha : a < 65536) (hv : v ≠ unlistedWord) :
    (m.insert a v).wfFrom lo = true := by
  induction m generalizing lo with
  | nil => simp [Memory.insert, Memory.wfFrom, hlo, ha, hv]
  | cons c rest ih =>
    obtain ⟨k, w⟩ := c
    rw [Memory.wfFrom_cons] at h
    simp only [Memory.insert]
    split
    · rw [Memory.wfFrom_cons, Memory.wfFrom_cons]
      exact ⟨hlo, ha, hv, by omega, h.2⟩
    · split
      · rename_i _ hk
        subst hk
        rw [Memory.wfFrom_cons]
        exact ⟨hlo, ha, hv, h.2.2.2⟩
      · rw [Memory.wfFrom_cons]
        exact ⟨h.1, h.2.1, h.2.2.1, ih h.2.2.2 (by omega)⟩

theorem Memory.wfFrom_filter {m : Memory} {lo : Nat} (p : Nat × Word → Bool)
    (h : m.wfFrom lo = true) : Memory.wfFrom lo (m.filter p) = true := by
  induction m generalizing lo with
  | nil => rfl
  | cons c rest ih =>
    obtain ⟨k, w⟩ := c
    rw [Memory.wfFrom_cons] at h
    by_cases hp : p (k, w) = true
    · rw [List.filter_cons_of_pos hp, Memory.wfFrom_cons]
      exact ⟨h.1, h.2.1, h.2.2.1, ih h.2.2.2⟩
    · rw [List.filter_cons_of_neg hp]
      exact Memory.wfFrom_mono (by omega) (ih h.2.2.2)

/-- A write keeps the canonical form. -/
theorem Memory.wf_write {m : Memory} (h : m.wf = true) (a v : Word) : (m.write a v).wf = true := by
  unfold Memory.write
  split
  · exact Memory.wfFrom_filter _ h
  · rename_i hv
    exact Memory.wfFrom_insert h (Nat.zero_le _) a.isLt hv

/-- The loader's write keeps the canonical form. -/
theorem Memory.wf_writeWords {m : Memory} (h : m.wf = true) (a : Word) (vs : List Word) :
    (m.writeWords a vs).wf = true := by
  induction vs generalizing m a with
  | nil => exact h
  | cons v vs ih => exact ih (Memory.wf_write h a v) (a + 1)

theorem State.reset_mem_wf : State.reset.mem.wf = true := rfl

end Sys2Proof.Machine
end

