-- ==== Sys2Proof/Laws/State.lean ====
section
/-! SUPPORT. One lemma per field of the state per update, true by `rfl`, so that no later proof
unfolds a record update; and the register file's read after write. -/

namespace Sys2Proof.Machine

theorem State.reg_setReg (s : State) (r q : Reg) (v : Word) :
    (s.setReg r v).reg q = if q = r then v else s.reg q := by
  simp only [State.reg, State.setReg, Vector.get_eq_getElem, Vector.getElem_set]
  by_cases h : q = r
  · simp [h]
  · rw [if_neg (fun e => h (Fin.ext e.symm)), if_neg h]

@[simp] theorem State.reg_setReg_self (s : State) (r : Reg) (v : Word) :
    (s.setReg r v).reg r = v := by simp [State.reg_setReg]

theorem State.reg_setReg_ne (s : State) {r q : Reg} (v : Word) (h : q ≠ r) :
    (s.setReg r v).reg q = s.reg q := by simp [State.reg_setReg, h]

/-! ## setReg -/

@[simp] theorem State.pc_setReg (s : State) (r : Reg) (v : Word) :
    (s.setReg r v).pc = s.pc := rfl

@[simp] theorem State.cond_setReg (s : State) (r : Reg) (v : Word) :
    (s.setReg r v).cond = s.cond := rfl

@[simp] theorem State.mem_setReg (s : State) (r : Reg) (v : Word) :
    (s.setReg r v).mem = s.mem := rfl

@[simp] theorem State.run_setReg (s : State) (r : Reg) (v : Word) :
    (s.setReg r v).run = s.run := rfl

@[simp] theorem State.io_setReg (s : State) (r : Reg) (v : Word) :
    (s.setReg r v).io = s.io := rfl

@[simp] theorem State.hostAbort_setReg (s : State) (r : Reg) (v : Word) :
    (s.setReg r v).hostAbort = s.hostAbort := rfl

@[simp] theorem State.params_setReg (s : State) (r : Reg) (v : Word) :
    (s.setReg r v).params = s.params := rfl

/-! ## setcc -/

@[simp] theorem State.reg_setcc (s : State) (v : Word) (r : Reg) :
    (s.setcc v).reg r = s.reg r := rfl

@[simp] theorem State.pc_setcc (s : State) (v : Word) :
    (s.setcc v).pc = s.pc := rfl

@[simp] theorem State.cond_setcc (s : State) (v : Word) :
    (s.setcc v).cond = condOf v := rfl

@[simp] theorem State.mem_setcc (s : State) (v : Word) :
    (s.setcc v).mem = s.mem := rfl

@[simp] theorem State.run_setcc (s : State) (v : Word) :
    (s.setcc v).run = s.run := rfl

@[simp] theorem State.io_setcc (s : State) (v : Word) :
    (s.setcc v).io = s.io := rfl

@[simp] theorem State.hostAbort_setcc (s : State) (v : Word) :
    (s.setcc v).hostAbort = s.hostAbort := rfl

@[simp] theorem State.params_setcc (s : State) (v : Word) :
    (s.setcc v).params = s.params := rfl

/-! ## writeResult -/

@[simp] theorem State.pc_writeResult (s : State) (r : Reg) (v : Word) :
    (s.writeResult r v).pc = s.pc := rfl

@[simp] theorem State.cond_writeResult (s : State) (r : Reg) (v : Word) :
    (s.writeResult r v).cond = condOf v := rfl

@[simp] theorem State.mem_writeResult (s : State) (r : Reg) (v : Word) :
    (s.writeResult r v).mem = s.mem := rfl

@[simp] theorem State.run_writeResult (s : State) (r : Reg) (v : Word) :
    (s.writeResult r v).run = s.run := rfl

@[simp] theorem State.io_writeResult (s : State) (r : Reg) (v : Word) :
    (s.writeResult r v).io = s.io := rfl

@[simp] theorem State.hostAbort_writeResult (s : State) (r : Reg) (v : Word) :
    (s.writeResult r v).hostAbort = s.hostAbort := rfl

@[simp] theorem State.params_writeResult (s : State) (r : Reg) (v : Word) :
    (s.writeResult r v).params = s.params := rfl

theorem State.reg_writeResult (s : State) (r q : Reg) (v : Word) :
    (s.writeResult r v).reg q = if q = r then v else s.reg q := State.reg_setReg s r q v

@[simp] theorem State.reg_writeResult_self (s : State) (r : Reg) (v : Word) :
    (s.writeResult r v).reg r = v := by simp [State.reg_writeResult]

/-! ## memWrite -/

@[simp] theorem State.reg_memWrite (s : State) (a v : Word) (r : Reg) :
    (s.memWrite a v).reg r = s.reg r := rfl

@[simp] theorem State.pc_memWrite (s : State) (a v : Word) :
    (s.memWrite a v).pc = s.pc := rfl

@[simp] theorem State.cond_memWrite (s : State) (a v : Word) :
    (s.memWrite a v).cond = s.cond := rfl

@[simp] theorem State.mem_memWrite (s : State) (a v : Word) :
    (s.memWrite a v).mem = s.mem.write a v := rfl

@[simp] theorem State.run_memWrite (s : State) (a v : Word) :
    (s.memWrite a v).run = s.run := rfl

@[simp] theorem State.io_memWrite (s : State) (a v : Word) :
    (s.memWrite a v).io = s.io := rfl

@[simp] theorem State.hostAbort_memWrite (s : State) (a v : Word) :
    (s.memWrite a v).hostAbort = s.hostAbort := rfl

@[simp] theorem State.params_memWrite (s : State) (a v : Word) :
    (s.memWrite a v).params = s.params := rfl

/-! ## writeChars -/

@[simp] theorem State.reg_writeChars (s : State) (bs : List Byte) (r : Reg) :
    (s.writeChars bs).reg r = s.reg r := rfl

@[simp] theorem State.pc_writeChars (s : State) (bs : List Byte) :
    (s.writeChars bs).pc = s.pc := rfl

@[simp] theorem State.cond_writeChars (s : State) (bs : List Byte) :
    (s.writeChars bs).cond = s.cond := rfl

@[simp] theorem State.mem_writeChars (s : State) (bs : List Byte) :
    (s.writeChars bs).mem = s.mem := rfl

@[simp] theorem State.run_writeChars (s : State) (bs : List Byte) :
    (s.writeChars bs).run = s.run := rfl

@[simp] theorem State.io_writeChars (s : State) (bs : List Byte) :
    (s.writeChars bs).io = { s.io with output := s.io.output ++ bs } := rfl

@[simp] theorem State.hostAbort_writeChars (s : State) (bs : List Byte) :
    (s.writeChars bs).hostAbort = s.hostAbort := rfl

@[simp] theorem State.params_writeChars (s : State) (bs : List Byte) :
    (s.writeChars bs).params = s.params := rfl

/-! ## flush -/

@[simp] theorem State.reg_flush (s : State) (r : Reg) :
    s.flush.reg r = s.reg r := rfl

@[simp] theorem State.pc_flush (s : State) :
    s.flush.pc = s.pc := rfl

@[simp] theorem State.cond_flush (s : State) :
    s.flush.cond = s.cond := rfl

@[simp] theorem State.mem_flush (s : State) :
    s.flush.mem = s.mem := rfl

@[simp] theorem State.run_flush (s : State) :
    s.flush.run = s.run := rfl

@[simp] theorem State.io_flush (s : State) :
    s.flush.io = { s.io with flushed := s.io.output.length } := rfl

@[simp] theorem State.hostAbort_flush (s : State) :
    s.flush.hostAbort = s.hostAbort := rfl

@[simp] theorem State.params_flush (s : State) :
    s.flush.params = s.params := rfl

/-! ## raiseFatal -/

@[simp] theorem State.reg_raiseFatal (s : State) (c : FatalCause) (w : Word) (r : Reg) :
    (s.raiseFatal c w).reg r = s.reg r := rfl

@[simp] theorem State.pc_raiseFatal (s : State) (c : FatalCause) (w : Word) :
    (s.raiseFatal c w).pc = s.pc := rfl

@[simp] theorem State.cond_raiseFatal (s : State) (c : FatalCause) (w : Word) :
    (s.raiseFatal c w).cond = s.cond := rfl

@[simp] theorem State.mem_raiseFatal (s : State) (c : FatalCause) (w : Word) :
    (s.raiseFatal c w).mem = s.mem := rfl

@[simp] theorem State.run_raiseFatal (s : State) (c : FatalCause) (w : Word) :
    (s.raiseFatal c w).run = .fatal { cause := c, word := w, address := s.pc - 1 } := rfl

@[simp] theorem State.io_raiseFatal (s : State) (c : FatalCause) (w : Word) :
    (s.raiseFatal c w).io = s.io := rfl

@[simp] theorem State.hostAbort_raiseFatal (s : State) (c : FatalCause) (w : Word) :
    (s.raiseFatal c w).hostAbort = s.hostAbort := rfl

@[simp] theorem State.params_raiseFatal (s : State) (c : FatalCause) (w : Word) :
    (s.raiseFatal c w).params = s.params := rfl

/-! ## enterTrap -/

@[simp] theorem State.pc_enterTrap (s : State) :
    s.enterTrap.pc = s.pc := rfl

@[simp] theorem State.cond_enterTrap (s : State) :
    s.enterTrap.cond = s.cond := rfl

@[simp] theorem State.mem_enterTrap (s : State) :
    s.enterTrap.mem = s.mem := rfl

@[simp] theorem State.run_enterTrap (s : State) :
    s.enterTrap.run = s.run := rfl

@[simp] theorem State.io_enterTrap (s : State) :
    s.enterTrap.io = s.io := rfl

@[simp] theorem State.hostAbort_enterTrap (s : State) :
    s.enterTrap.hostAbort = s.hostAbort := rfl

@[simp] theorem State.params_enterTrap (s : State) :
    s.enterTrap.params = s.params := rfl

theorem State.reg_enterTrap (s : State) (q : Reg) :
    s.enterTrap.reg q = if q = 7 then s.pc else s.reg q := State.reg_setReg s 7 q s.pc

/-! ## abortAtBoundary -/

@[simp] theorem State.reg_abortAtBoundary (s : State) (r : Reg) :
    s.abortAtBoundary.reg r = s.reg r := rfl

@[simp] theorem State.pc_abortAtBoundary (s : State) :
    s.abortAtBoundary.pc = s.pc := rfl

@[simp] theorem State.cond_abortAtBoundary (s : State) :
    s.abortAtBoundary.cond = s.cond := rfl

@[simp] theorem State.mem_abortAtBoundary (s : State) :
    s.abortAtBoundary.mem = s.mem := rfl

@[simp] theorem State.run_abortAtBoundary (s : State) :
    s.abortAtBoundary.run = .aborted := rfl

@[simp] theorem State.io_abortAtBoundary (s : State) :
    s.abortAtBoundary.io = s.io := rfl

@[simp] theorem State.hostAbort_abortAtBoundary (s : State) :
    s.abortAtBoundary.hostAbort = s.hostAbort := rfl

@[simp] theorem State.params_abortAtBoundary (s : State) :
    s.abortAtBoundary.params = s.params := rfl

/-! ## abortInStep -/

@[simp] theorem State.reg_abortInStep (s : State) (now : State) (r : Reg) :
    (s.abortInStep now).reg r = s.reg r := rfl

@[simp] theorem State.pc_abortInStep (s : State) (now : State) :
    (s.abortInStep now).pc = s.pc - 1 := rfl

@[simp] theorem State.cond_abortInStep (s : State) (now : State) :
    (s.abortInStep now).cond = s.cond := rfl

@[simp] theorem State.mem_abortInStep (s : State) (now : State) :
    (s.abortInStep now).mem = s.mem := rfl

@[simp] theorem State.run_abortInStep (s : State) (now : State) :
    (s.abortInStep now).run = .aborted := rfl

@[simp] theorem State.io_abortInStep (s : State) (now : State) :
    (s.abortInStep now).io = now.io := rfl

@[simp] theorem State.hostAbort_abortInStep (s : State) (now : State) :
    (s.abortInStep now).hostAbort = s.hostAbort := rfl

@[simp] theorem State.params_abortInStep (s : State) (now : State) :
    (s.abortInStep now).params = s.params := rfl

end Sys2Proof.Machine
end

