-- ==== Sys2Proof/Laws/Ops.lean ====
section
/-! SUPPORT. What each shared operation can do, said once: the terminal, the adapter's read, the
fetch, the blocking read, and the step. -/

namespace Sys2Proof.Machine

/-! ## The terminal -/

theorem Io.takeByte_isSome (io : Io) : io.takeByte.isSome = io.hasByte := by
  unfold Io.takeByte Io.hasByte
  rcases h : io.inq with _ | ⟨b, bs⟩ <;> cases ht : io.tail <;> simp

/-- Taking a byte touches the input alone. -/
theorem Io.takeByte_kept {io io' : Io} {c : Byte} (h : io.takeByte = some (c, io')) :
    io'.output = io.output ∧ io'.flushed = io.flushed ∧ io'.polls = io.polls ∧
      io'.draws = io.draws := by
  unfold Io.takeByte at h
  split at h <;> cases h <;> simp

/-- A draw touches the list and the counter of draws alone. -/
theorem Io.poll_kept (io : Io) :
    io.poll.2.output = io.output ∧ io.poll.2.flushed = io.flushed ∧ io.poll.2.inq = io.inq ∧
      io.poll.2.tail = io.tail := by
  unfold Io.poll Io.draw
  split <;> simp

theorem Io.hasByte_poll (io : Io) : io.poll.2.hasByte = io.hasByte := by
  obtain ⟨-, -, hq, ht⟩ := Io.poll_kept io
  unfold Io.hasByte
  rw [hq, ht]

/-- `Poll()` answers true only if the input holds a byte (R71). -/
theorem Io.hasByte_of_poll {io : Io} (h : io.poll.1 = true) : io.hasByte = true := by
  simp only [Io.poll, Bool.and_eq_true] at h
  exact h.2

/-! ## The adapter's read -/

/-- The two outcomes of the poll (R64). -/
theorem State.pollKeyboard_cases (s : State) :
    (∃ c io, s.io.poll.1 = true ∧ s.io.poll.2.takeByte = some (c, io) ∧
      s.pollKeyboard =
        { s with io := io, mem := (s.mem.write kbsr kbsrReady).write kbdr (zext8 c) }) ∨
    (s.io.poll.1 = false ∧
      s.pollKeyboard = { s with io := s.io.poll.2, mem := s.mem.write kbsr kbsrIdle }) := by
  rcases hp : s.io.poll.1 with _ | _
  · right; simp [State.pollKeyboard, hp]
  · left
    have hb : s.io.poll.2.takeByte.isSome = true := by
      rw [Io.takeByte_isSome, Io.hasByte_poll, Io.hasByte_of_poll hp]
    obtain ⟨⟨c, io⟩, hc⟩ := Option.isSome_iff_exists.1 hb
    exact ⟨c, io, rfl, hc, by simp [State.pollKeyboard, hp, hc]⟩

/-- What the poll leaves alone, whichever its answer. -/
theorem State.pollKeyboard_kept (s : State) :
    s.pollKeyboard.regs = s.regs ∧ s.pollKeyboard.pc = s.pc ∧ s.pollKeyboard.cond = s.cond ∧
      s.pollKeyboard.run = s.run ∧ s.pollKeyboard.hostAbort = s.hostAbort ∧
      s.pollKeyboard.params = s.params ∧ s.pollKeyboard.io.output = s.io.output ∧
      s.pollKeyboard.io.flushed = s.io.flushed := by
  have hk := Io.poll_kept s.io
  obtain ⟨c, io, -, hc, h⟩ | ⟨-, h⟩ := s.pollKeyboard_cases
  · have ht := Io.takeByte_kept hc
    simp [h, ht, hk]
  · simp [h, hk]

/-- The poll writes KBSR and KBDR alone. -/
theorem State.read_pollKeyboard (s : State) {a : Word} (h1 : a ≠ kbsr) (h2 : a ≠ kbdr) :
    s.pollKeyboard.mem.read a = s.mem.read a := by
  obtain ⟨c, io, -, -, h⟩ | ⟨-, h⟩ := s.pollKeyboard_cases
  · simp [h, Memory.read_write, h1, h2]
  · simp [h, Memory.read_write, h1]

theorem State.wf_pollKeyboard {s : State} (hw : s.mem.wf = true) :
    s.pollKeyboard.mem.wf = true := by
  obtain ⟨c, io, -, -, h⟩ | ⟨-, h⟩ := s.pollKeyboard_cases
  · rw [h]; exact Memory.wf_write (Memory.wf_write hw _ _) _ _
  · rw [h]; exact Memory.wf_write hw kbsr kbsrIdle

theorem State.touch_ne (s : State) {a : Word} (h : a ≠ kbsr) : s.touch a = s := if_neg h

@[simp] theorem State.touch_kbsr (s : State) : s.touch kbsr = s.pollKeyboard := if_pos rfl

/-- What any read leaves alone. -/
theorem State.touch_kept (s : State) (a : Word) :
    (s.touch a).regs = s.regs ∧ (s.touch a).pc = s.pc ∧ (s.touch a).cond = s.cond ∧
      (s.touch a).run = s.run ∧ (s.touch a).hostAbort = s.hostAbort ∧
      (s.touch a).params = s.params ∧ (s.touch a).io.output = s.io.output ∧
      (s.touch a).io.flushed = s.io.flushed := by
  by_cases h : a = kbsr
  · rw [h, State.touch_kbsr]; exact s.pollKeyboard_kept
  · rw [State.touch_ne s h]; simp

@[simp] theorem State.regs_touch (s : State) (a : Word) : (s.touch a).regs = s.regs :=
  (s.touch_kept a).1
@[simp] theorem State.reg_touch (s : State) (a : Word) (r : Reg) : (s.touch a).reg r = s.reg r := by
  simp [State.reg]
@[simp] theorem State.pc_touch (s : State) (a : Word) : (s.touch a).pc = s.pc :=
  (s.touch_kept a).2.1
@[simp] theorem State.cond_touch (s : State) (a : Word) : (s.touch a).cond = s.cond :=
  (s.touch_kept a).2.2.1
@[simp] theorem State.run_touch (s : State) (a : Word) : (s.touch a).run = s.run :=
  (s.touch_kept a).2.2.2.1
@[simp] theorem State.hostAbort_touch (s : State) (a : Word) :
    (s.touch a).hostAbort = s.hostAbort := (s.touch_kept a).2.2.2.2.1
@[simp] theorem State.params_touch (s : State) (a : Word) : (s.touch a).params = s.params :=
  (s.touch_kept a).2.2.2.2.2.1
@[simp] theorem State.output_touch (s : State) (a : Word) :
    (s.touch a).io.output = s.io.output := (s.touch_kept a).2.2.2.2.2.2.1
@[simp] theorem State.flushed_touch (s : State) (a : Word) :
    (s.touch a).io.flushed = s.io.flushed := (s.touch_kept a).2.2.2.2.2.2.2

@[simp] theorem State.memRead_fst (s : State) (a : Word) :
    (s.memRead a).1 = (s.touch a).mem.read a := rfl
@[simp] theorem State.memRead_snd (s : State) (a : Word) : (s.memRead a).2 = s.touch a := rfl

theorem State.wf_touch {s : State} (hw : s.mem.wf = true) (a : Word) :
    (s.touch a).mem.wf = true := by
  by_cases h : a = kbsr
  · rw [h, State.touch_kbsr]; exact State.wf_pollKeyboard hw
  · rw [State.touch_ne s h]; exact hw

/-! ## Fetch and the blocking read -/

@[simp] theorem State.fetch_fst (s : State) : s.fetch.1 = (s.touch s.pc).mem.read s.pc := rfl

@[simp] theorem State.fetch_snd (s : State) :
    s.fetch.2 = { s.touch s.pc with pc := s.pc + 1 } := rfl

/-- Everything a blocking read can do. -/
theorem State.readCharThen_cases (entry now : State) (k : Word → State → Result) :
    (now.hostAbort = some .duringRead ∧
      entry.readCharThen now k = .next (entry.abortInStep now)) ∨
    (now.hostAbort ≠ some .duringRead ∧
      ((∃ c io, now.io.takeByte = some (c, io) ∧
          entry.readCharThen now k = k (zext8 c) { now with io := io }) ∨
        (now.io.takeByte = none ∧ ∃ v, now.params.eofPolicy = .value v ∧
          entry.readCharThen now k = k v now) ∨
        (now.io.takeByte = none ∧ now.params.eofPolicy = .stuck ∧
          entry.readCharThen now k = .fault (.readNeverCompletes now.io)))) := by
  unfold State.readCharThen
  by_cases h : now.hostAbort = some .duringRead
  · left; simp [h]
  · right
    refine ⟨h, ?_⟩
    rw [if_neg h]
    rcases ht : now.io.takeByte with _ | ⟨c, io⟩
    · right
      rcases he : now.params.eofPolicy with _ | v
      · right; simp
      · left; simp
    · left; exact ⟨c, io, rfl, rfl⟩

/-! ## The step -/

theorem State.not_fatal_of_running {s : State} (h : s.run = .running) : ¬ s.Fatal := by
  rintro ⟨info, hf⟩
  rw [h] at hf
  cases hf

/-- A state that takes a step is not FATAL, so the whole invariant holds of it. -/
theorem State.Inv.of_running {s : State} (hi : s.Inv) (h : s.run = .running) :
    s.CondLegal ∧ s.mem.wf = true :=
  ⟨hi.cond_legal (State.not_fatal_of_running h), hi.mem_wf (State.not_fatal_of_running h)⟩

/-- Everything a step that answers a next state can do. -/
theorem step_next {s t : State} (h : step s = .next t) :
    s.run = .running ∧
      ((s.hostAbort = some .boundary ∧ t = s.abortAtBoundary) ∨
        (s.hostAbort ≠ some .boundary ∧ exec (decode s.fetch.1) s.fetch.2 = .next t)) := by
  unfold step at h
  split at h
  · rename_i hr
    refine ⟨hr, ?_⟩
    split at h
    · rename_i ha
      cases h
      exact Or.inl ⟨ha, rfl⟩
    · rename_i ha
      exact Or.inr ⟨ha, h⟩
  all_goals cases h

/-- An instruction word placed at PC is the one the next step runs (but at 0xFE00, where the fetch
polls: notes/assumptions/26.md). -/
theorem step_withFetchWord (s : State) (nbits w : Nat) (h : s.pc ≠ kbsr) :
    step (s.withFetchWord nbits w) =
      exec (decode (BitVec.ofNat 16 w)) { s.withFetchWord nbits w with pc := s.pc + 1 } := by
  have hp : (s.withFetchWord nbits w).pc = s.pc := rfl
  have hr : (s.withFetchWord nbits w).run = .running := rfl
  have ha : (s.withFetchWord nbits w).hostAbort ≠ some .boundary := by
    simp only [State.withFetchWord]
    split
    · simp
    · assumption
  have hm : (s.withFetchWord nbits w).mem.read s.pc = BitVec.ofNat 16 w :=
    Memory.read_write_self s.mem s.pc _
  simp only [step, hr, if_neg ha, State.fetch_fst, State.fetch_snd, hp, State.touch_ne _ h, hm]

/-- Everything the loader can do (R283). -/
theorem State.loadImage_cases (s : State) (origin : Word) (image : List Word) :
    (origin.toNat + image.length ≤ 65536 ∧
      s.loadImage origin image = some { s with mem := s.mem.writeWords origin image }) ∨
    (65536 < origin.toNat + image.length ∧ s.loadImage origin image = none) := by
  unfold State.loadImage
  split
  · exact Or.inl ⟨‹_›, rfl⟩
  · exact Or.inr ⟨by omega, rfl⟩

/-- The flag of a value is one of COND's three legal values (R37, R38). -/
theorem condOf_cases (v : Word) : condOf v = condP ∨ condOf v = condZ ∨ condOf v = condN := by
  unfold condOf
  split
  · simp
  · split <;> simp

end Sys2Proof.Machine
end

