-- ==== Sys2Proof/Laws/PerInstr.lean ====
section
/-! SUPPORT. A fact about every instruction as syntax: the top four bits of its word are the opcode
that spec/30_encoding.md R104 gives it. -/

namespace Sys2Proof.Laws.EncodesOpcode

/-- The word's field w[15:12] is the instruction's opcode (R101, R104). -/
def Statement (i : Instr) : Prop := opcodeField (encode i) = i.opcode

/-- A word's opcode is read off its four top bits. -/
theorem opcodeField_eq {w : Word} {op : BitVec 4} (h0 : w.getLsbD 12 = op.getLsbD 0)
    (h1 : w.getLsbD 13 = op.getLsbD 1) (h2 : w.getLsbD 14 = op.getLsbD 2)
    (h3 : w.getLsbD 15 = op.getLsbD 3) : opcodeField w = op := by
  apply BitVec.eq_of_getLsbD_eq
  intro i hi
  have : i = 0 ∨ i = 1 ∨ i = 2 ∨ i = 3 := by omega
  rcases this with rfl | rfl | rfl | rfl <;> simp only [opcodeField, BitVec.getLsbD_extractLsb'] <;>
    simpa

theorem addReg (dr sr1 : Reg) (ign : BitVec 2) (sr2 : Reg) :
    Statement (.addReg dr sr1 ign sr2) := by
  apply opcodeField_eq <;> simp only [encode, Instr.opcode, BitVec.getLsbD_append] <;> rfl

theorem addImm (dr sr1 : Reg) (imm5 : BitVec 5) :
    Statement (.addImm dr sr1 imm5) := by
  apply opcodeField_eq <;> simp only [encode, Instr.opcode, BitVec.getLsbD_append] <;> rfl

theorem andReg (dr sr1 : Reg) (ign : BitVec 2) (sr2 : Reg) :
    Statement (.andReg dr sr1 ign sr2) := by
  apply opcodeField_eq <;> simp only [encode, Instr.opcode, BitVec.getLsbD_append] <;> rfl

theorem andImm (dr sr1 : Reg) (imm5 : BitVec 5) :
    Statement (.andImm dr sr1 imm5) := by
  apply opcodeField_eq <;> simp only [encode, Instr.opcode, BitVec.getLsbD_append] <;> rfl

theorem not (dr sr : Reg) (ign : BitVec 6) :
    Statement (.not dr sr ign) := by
  apply opcodeField_eq <;> simp only [encode, Instr.opcode, BitVec.getLsbD_append] <;> rfl

theorem br (nzp : BitVec 3) (off9 : BitVec 9) :
    Statement (.br nzp off9) := by
  apply opcodeField_eq <;> simp only [encode, Instr.opcode, BitVec.getLsbD_append] <;> rfl

theorem jmp (ignHi : BitVec 3) (baseR : Reg) (ignLo : BitVec 6) :
    Statement (.jmp ignHi baseR ignLo) := by
  apply opcodeField_eq <;> simp only [encode, Instr.opcode, BitVec.getLsbD_append] <;> rfl

theorem jsr (off11 : BitVec 11) :
    Statement (.jsr off11) := by
  apply opcodeField_eq <;> simp only [encode, Instr.opcode, BitVec.getLsbD_append] <;> rfl

theorem jsrr (ignHi : BitVec 2) (baseR : Reg) (ignLo : BitVec 6) :
    Statement (.jsrr ignHi baseR ignLo) := by
  apply opcodeField_eq <;> simp only [encode, Instr.opcode, BitVec.getLsbD_append] <;> rfl

theorem ld (dr : Reg) (off9 : BitVec 9) :
    Statement (.ld dr off9) := by
  apply opcodeField_eq <;> simp only [encode, Instr.opcode, BitVec.getLsbD_append] <;> rfl

theorem ldi (dr : Reg) (off9 : BitVec 9) :
    Statement (.ldi dr off9) := by
  apply opcodeField_eq <;> simp only [encode, Instr.opcode, BitVec.getLsbD_append] <;> rfl

theorem ldr (dr baseR : Reg) (off6 : BitVec 6) :
    Statement (.ldr dr baseR off6) := by
  apply opcodeField_eq <;> simp only [encode, Instr.opcode, BitVec.getLsbD_append] <;> rfl

theorem lea (dr : Reg) (off9 : BitVec 9) :
    Statement (.lea dr off9) := by
  apply opcodeField_eq <;> simp only [encode, Instr.opcode, BitVec.getLsbD_append] <;> rfl

theorem st (sr : Reg) (off9 : BitVec 9) :
    Statement (.st sr off9) := by
  apply opcodeField_eq <;> simp only [encode, Instr.opcode, BitVec.getLsbD_append] <;> rfl

theorem sti (sr : Reg) (off9 : BitVec 9) :
    Statement (.sti sr off9) := by
  apply opcodeField_eq <;> simp only [encode, Instr.opcode, BitVec.getLsbD_append] <;> rfl

theorem str (sr baseR : Reg) (off6 : BitVec 6) :
    Statement (.str sr baseR off6) := by
  apply opcodeField_eq <;> simp only [encode, Instr.opcode, BitVec.getLsbD_append] <;> rfl

theorem trapGetc (ign : BitVec 4) :
    Statement (.trapGetc ign) := by
  apply opcodeField_eq <;> simp only [encode, Instr.opcode, BitVec.getLsbD_append] <;> rfl

theorem trapOut (ign : BitVec 4) :
    Statement (.trapOut ign) := by
  apply opcodeField_eq <;> simp only [encode, Instr.opcode, BitVec.getLsbD_append] <;> rfl

theorem trapPuts (ign : BitVec 4) :
    Statement (.trapPuts ign) := by
  apply opcodeField_eq <;> simp only [encode, Instr.opcode, BitVec.getLsbD_append] <;> rfl

theorem trapIn (ign : BitVec 4) :
    Statement (.trapIn ign) := by
  apply opcodeField_eq <;> simp only [encode, Instr.opcode, BitVec.getLsbD_append] <;> rfl

theorem trapPutsp (ign : BitVec 4) :
    Statement (.trapPutsp ign) := by
  apply opcodeField_eq <;> simp only [encode, Instr.opcode, BitVec.getLsbD_append] <;> rfl

theorem trapHalt (ign : BitVec 4) :
    Statement (.trapHalt ign) := by
  apply opcodeField_eq <;> simp only [encode, Instr.opcode, BitVec.getLsbD_append] <;> rfl

theorem trapInvalid (ign : BitVec 4) (vector : BitVec 8) :
    Statement (.trapInvalid ign vector) := by
  apply opcodeField_eq <;> simp only [encode, Instr.opcode, BitVec.getLsbD_append] <;> rfl

theorem rti (ign : BitVec 12) :
    Statement (.rti ign) := by
  apply opcodeField_eq <;> simp only [encode, Instr.opcode, BitVec.getLsbD_append] <;> rfl

theorem res (ign : BitVec 12) :
    Statement (.res ign) := by
  apply opcodeField_eq <;> simp only [encode, Instr.opcode, BitVec.getLsbD_append] <;> rfl

end Sys2Proof.Laws.EncodesOpcode
end

