-- ==== Sys2Proof/Laws/Strings.lean ====
section
/-! SUPPORT. What the string routine of PUTS and PUTSP can do, said once (spec/43_trap.md R214, R216,
R221). -/

namespace Sys2Proof.Machine

theorem ofNat_succ_add (a : Word) (k : Nat) :
    a + 1 + BitVec.ofNat 16 k = a + BitVec.ofNat 16 (k + 1) := by
  rw [BitVec.ofNat_add, BitVec.add_assoc, BitVec.add_comm 1]
  rfl

/-- The scan finds no end exactly when none of its `fuel` words is zero. -/
theorem stringBytes_eq_none (f : Word → List Byte) (m : Memory) (fuel : Nat) (a : Word) :
    stringBytes f m fuel a = none ↔ ∀ k, k < fuel → m.read (a + BitVec.ofNat 16 k) ≠ 0 := by
  induction fuel generalizing a with
  | zero => simp [stringBytes]
  | succ fuel ih =>
    have h0 : a + BitVec.ofNat 16 0 = a := by simp
    unfold stringBytes
    split
    · rename_i hz
      simp only [reduceCtorEq, false_iff, not_forall]
      exact ⟨0, by omega, by rw [h0]; simpa using hz⟩
    · rename_i hz
      rw [Option.map_eq_none_iff, ih]
      constructor
      · intro h k hk
        cases k with
        | zero => rwa [h0]
        | succ k => rw [← ofNat_succ_add]; exact h k (by omega)
      · intro h k hk
        rw [ofNat_succ_add]
        exact h (k + 1) (by omega)

/-- The bytes of a string whose first zero word is its `n`-th. -/
theorem stringBytes_of_zero (f : Word → List Byte) (m : Memory) {fuel n : Nat} {a : Word}
    (hn : n < fuel) (h : ∀ k, k < n → m.read (a + BitVec.ofNat 16 k) ≠ 0)
    (hz : m.read (a + BitVec.ofNat 16 n) = 0) :
    stringBytes f m fuel a = some (stringOutput f m a n) := by
  unfold stringOutput
  induction n generalizing fuel a with
  | zero =>
    obtain ⟨fuel, rfl⟩ : ∃ k, fuel = k + 1 := ⟨fuel - 1, by omega⟩
    simp only [BitVec.ofNat_eq_ofNat, BitVec.add_zero] at hz
    simp [stringBytes, hz]
  | succ n ih =>
    obtain ⟨fuel, rfl⟩ : ∃ k, fuel = k + 1 := ⟨fuel - 1, by omega⟩
    have h0 : m.read a ≠ 0 := by simpa using h 0 (by omega)
    unfold stringBytes
    rw [if_neg h0, ih (by omega) (fun k hk => by rw [ofNat_succ_add]; exact h (k + 1) (by omega))
      (by rw [ofNat_succ_add]; exact hz)]
    simp only [ofNat_succ_add, List.range_succ_eq_map, List.flatMap_cons, List.flatMap_map,
      Option.map_some]
    simp

/-- Every address is within 65,536 words of every other. -/
theorem exists_offset (a b : Word) : ∃ k, k < 65536 ∧ a + BitVec.ofNat 16 k = b := by
  refine ⟨(b - a).toNat, (b - a).isLt, ?_⟩
  rw [BitVec.ofNat_toNat, BitVec.setWidth_eq, BitVec.add_comm, BitVec.sub_add_cancel]

/-! ## The endless output -/

/-- After 65,536 words the walk is back where it began. -/
theorem stringOutput_add (f : Word → List Byte) (m : Memory) (a : Word) (n : Nat) :
    stringOutput f m a (65536 + n) = stringOutput f m a 65536 ++ stringOutput f m a n := by
  have h : ∀ k, BitVec.ofNat 16 (65536 + k) = BitVec.ofNat 16 k := fun k => by
    apply BitVec.eq_of_toNat_eq
    simp only [BitVec.toNat_ofNat]
    omega
  simp only [stringOutput, List.range_add, List.flatMap_append, List.flatMap_map, h]

/-- A shorter walk's output begins a longer walk's. -/
theorem stringOutput_prefix (f : Word → List Byte) (m : Memory) (a : Word) {n p : Nat} (h : n ≤ p) :
    stringOutput f m a n <+: stringOutput f m a p := by
  obtain ⟨d, rfl⟩ := Nat.exists_eq_add_of_le h
  simp only [stringOutput, List.range_add, List.flatMap_append]
  exact List.prefix_append _ _

/-- The output of any number of words repeats that of the first 65,536. -/
theorem stringOutput_periodic (f : Word → List Byte) (m : Memory) (a : Word) (n k : Nat)
    (hk : k < (stringOutput f m a n).length) :
    (stringOutput f m a n)[k]? =
      (stringOutput f m a 65536)[k % (stringOutput f m a 65536).length]? := by
  induction n using Nat.strongRecOn generalizing k with
  | _ n ih =>
    by_cases hn : n ≤ 65536
    · have hp := stringOutput_prefix f m a hn
      rw [Nat.mod_eq_of_lt (hk.trans_le hp.length_le)]
      obtain ⟨t, ht⟩ := hp
      rw [← ht, List.getElem?_append_left hk]
    · obtain ⟨d, rfl⟩ := Nat.exists_eq_add_of_le (Nat.le_of_not_le hn)
      rw [stringOutput_add] at hk ⊢
      by_cases hl : k < (stringOutput f m a 65536).length
      · rw [List.getElem?_append_left hl, Nat.mod_eq_of_lt hl]
      · have hl := Nat.le_of_not_lt hl
        rw [List.getElem?_append_right hl, Nat.mod_eq_sub_mod hl]
        exact ih d (by omega) _ (by rw [List.length_append] at hk; omega)

/-- Over a memory without a zero word the routine never ends. -/
theorem State.writeString_endless {s : State} (h : ∀ a, s.mem.read a ≠ 0) (f : Word → List Byte) :
    s.writeString f =
      .fault (.stringNeverEnds s.io (stringOutput f s.mem (s.reg 0) 65536)) := by
  have hn := (stringBytes_eq_none f s.mem 65536 (s.reg 0)).2 fun _ _ => h _
  simp [State.writeString, hn]

/-- Everything the string routine can do. -/
theorem State.writeString_cases (s : State) (f : Word → List Byte) :
    (∃ bs, stringBytes f s.mem 65536 (s.reg 0) = some bs ∧
      s.writeString f = .next (s.writeChars bs)) ∨
    ((∀ a, s.mem.read a ≠ 0) ∧
      s.writeString f =
        .fault (.stringNeverEnds s.io (stringOutput f s.mem (s.reg 0) 65536))) := by
  rcases h : stringBytes f s.mem 65536 (s.reg 0) with _ | bs
  · right
    refine ⟨fun a => ?_, by simp [State.writeString, h]⟩
    obtain ⟨k, hk, rfl⟩ := exists_offset (s.reg 0) a
    exact (stringBytes_eq_none ..).1 h k hk
  · left
    exact ⟨bs, rfl, by simp [State.writeString, h, State.returnFromTrap]⟩

end Sys2Proof.Machine
end

