-- ==== Sys2Proof/Tests/Slice0.lean ====
section
/-! SUPPORT. The model's own tests.  The words and the expected values are those of
spec/95_test_vectors.md and of the encodings of spec/30_encoding.md R103 to R105; the witnesses show,
for every statement with hypotheses, a state and operands that meet them. -/

namespace Sys2Proof.Tests

open Sys2Proof.Machine

/-! ## Decoding: one word per constructor, written out field by field (R103 to R105) -/

theorem test_decode_addReg : decode 0b0001_011_101_0_00_110 = .addReg 3 5 0 6 := by decide
theorem test_decode_addImm : decode 0b0001_011_101_1_10110 = .addImm 3 5 0b10110 := by decide
theorem test_decode_andReg : decode 0b0101_011_101_0_11_110 = .andReg 3 5 0b11 6 := by decide
theorem test_decode_andImm : decode 0b0101_011_101_1_10110 = .andImm 3 5 0b10110 := by decide
theorem test_decode_not : decode 0b1001_001_010_111111 = .not 1 2 0b111111 := by decide
theorem test_decode_br : decode 0b0000_110_100000101 = .br 0b110 0b100000101 := by decide
theorem test_decode_jmp : decode 0b1100_000_111_000000 = .jmp 0 7 0 := by decide
theorem test_decode_jsr : decode 0b0100_1_10000000001 = .jsr 0b10000000001 := by decide
theorem test_decode_jsrr : decode 0b0100_0_00_010_000000 = .jsrr 0 2 0 := by decide
theorem test_decode_ld : decode 0b0010_110_100000010 = .ld 6 0b100000010 := by decide
theorem test_decode_ldi : decode 0b1010_001_000000001 = .ldi 1 1 := by decide
theorem test_decode_ldr : decode 0b0110_010_011_111111 = .ldr 2 3 0b111111 := by decide
theorem test_decode_lea : decode 0b1110_001_111111111 = .lea 1 0b111111111 := by decide
theorem test_decode_st : decode 0b0011_001_111111110 = .st 1 0b111111110 := by decide
theorem test_decode_sti : decode 0b1011_001_000000011 = .sti 1 3 := by decide
theorem test_decode_str : decode 0b0111_100_101_000010 = .str 4 5 2 := by decide
theorem test_decode_trapGetc : decode 0b1111_0000_00100000 = .trapGetc 0 := by decide
theorem test_decode_trapOut : decode 0b1111_0000_00100001 = .trapOut 0 := by decide
theorem test_decode_trapPuts : decode 0b1111_0000_00100010 = .trapPuts 0 := by decide
theorem test_decode_trapIn : decode 0b1111_0000_00100011 = .trapIn 0 := by decide
theorem test_decode_trapPutsp : decode 0b1111_0000_00100100 = .trapPutsp 0 := by decide
theorem test_decode_trapHalt : decode 0b1111_1111_00100101 = .trapHalt 0b1111 := by decide
theorem test_decode_trapInvalid : decode 0b1111_0000_00100110 = .trapInvalid 0 0x26 := by decide
theorem test_decode_rti : decode 0b1000_111111111111 = .rti 0b111111111111 := by decide
theorem test_decode_res : decode 0b1101_000100100011 = .res 0b000100100011 := by decide

/-- The one check of `Instr.wf`: an invalid-vector TRAP does not carry a routine's vector. -/
theorem test_wf_refuses_routine_vectors :
    ∀ v ∈ recognisedVectors, Instr.wf (.trapInvalid 0 v) = false := by decide

theorem test_wf_accepts_other_vectors :
    Instr.wf (.trapInvalid 0 0x1F) = true ∧ Instr.wf (.trapInvalid 0 0x26) = true := by decide

theorem test_decodeTableWord : decodeTableWord 16 0x4810 = some (.jsr 16) := by decide

/-! ## One step of each instruction (the vectors of spec/95_test_vectors.md) -/

/-- The reset state with `words` written to memory and `regs` to the registers. -/
def start (pc : Word) (words : List (Word × Word)) (regs : List (Reg × Word)) : State :=
  regs.foldl (fun s r => s.setReg r.1 r.2)
    (words.foldl (fun s w => s.memWrite w.1 w.2) { State.reset with pc := pc })

/-- `start` with the terminal's next bytes and the next answers of `Poll()`. -/
def startIo (pc : Word) (words : List (Word × Word)) (regs : List (Reg × Word))
    (inq : List Byte) (polls : List Bool) : State :=
  let s := start pc words regs
  { s with io := { s.io with inq := inq, polls := polls, tail := .ends } }

/-- A state at the end of its input. -/
def atEnd (p : Config.EofPolicy) : State :=
  { startIo 0x3001 [] [] [] [] with params := { defaultParams with eofPolicy := p } }

/-- What `f` sees of the state after one step. -/
def after {α : Type} (s : State) (f : State → α) : Option α :=
  match step s with
  | .next t => some (f t)
  | .fault _ | .refused _ => none

-- O1, O4
theorem test_add_register :
    after (start 0x3000 [(0x3000, 0x1042)] [(1, 3), (2, 0xFFFF)]) (fun t => (t.reg 0, t.cond, t.pc))
      = some (0x0002, 0x0001, 0x3001) := by decide
theorem test_add_source_is_destination :
    after (start 0x3000 [(0x3000, 0x1241)] [(1, 0x1234)]) (fun t => (t.reg 1, t.cond))
      = some (0x2468, 0x0001) := by decide
-- O2, O5
theorem test_add_immediate_overflows :
    after (start 0x3000 [(0x3000, 0x1261)] [(1, 0x7FFF)]) (fun t => (t.reg 1, t.cond))
      = some (0x8000, 0x0004) := by decide
theorem test_add_immediate_negative :
    after (start 0x3000 [(0x3000, 0x1030)] []) (fun t => (t.reg 0, t.cond))
      = some (0xFFF0, 0x0004) := by decide
-- O7
theorem test_and_register :
    after (start 0x3000 [(0x3000, 0x5642)] [(1, 0x00F0), (2, 0x0FF0)]) (fun t => (t.reg 3, t.cond))
      = some (0x00F0, 0x0001) := by decide
-- O8
theorem test_and_immediate_sign_extended :
    after (start 0x3000 [(0x3000, 0x5030)] [(0, 0x8001)]) (fun t => (t.reg 0, t.cond))
      = some (0x8000, 0x0004) := by decide
-- O11, O13
theorem test_not :
    after (start 0x3000 [(0x3000, 0x92BF)] [(2, 0x00FF)]) (fun t => (t.reg 1, t.cond))
      = some (0xFF00, 0x0004) := by decide
theorem test_not_ignores_low_bits :
    after (start 0x3000 [(0x3000, 0x9000)] [(0, 0x8000)]) (fun t => (t.reg 0, t.cond))
      = some (0x7FFF, 0x0001) := by decide
-- CT1, CT5
theorem test_br_taken :
    after (start 0x3000 [(0x3000, 0x05FF)] []) (fun t => t.pc) = some 0x3000 := by decide
theorem test_br_wraps :
    after (start 0xFFFF [(0xFFFF, 0x0E01)] []) (fun t => t.pc) = some 0x0001 := by decide
-- CT9
theorem test_ret :
    after (start 0x4000 [(0x4000, 0xC1C0)] [(7, 0x3005)]) (fun t => (t.pc, t.cond))
      = some (0x3005, 0x0002) := by decide
-- CT11
theorem test_jsr :
    after (start 0x3000 [(0x3000, 0x4C00)] []) (fun t => (t.reg 7, t.pc))
      = some (0x3001, 0x2C01) := by decide
-- CT13, CT14
theorem test_jsrr :
    after (start 0x3000 [(0x3000, 0x4080)] [(2, 0x5000)]) (fun t => (t.reg 7, t.pc))
      = some (0x3001, 0x5000) := by decide
theorem test_jsrr_r7 :
    after (start 0x3000 [(0x3000, 0x41C0)] [(7, 0x4444)]) (fun t => (t.reg 7, t.pc))
      = some (0x3001, 0x3001) := by decide
-- M1, M2
theorem test_ld :
    after (start 0x3000 [(0x3000, 0x2002), (0x3003, 0x8001)] []) (fun t => (t.reg 0, t.cond))
      = some (0x8001, 0x0004) := by decide
theorem test_ld_wraps :
    after (start 0xFFFE [(0xFFFE, 0x2001), (0x0000, 0x0042)] []) (fun t => (t.reg 0, t.cond))
      = some (0x0042, 0x0001) := by decide
-- S4, M9
theorem test_ldi :
    after (start 0x3000 [(0x3000, 0xA201), (0x3002, 0x4000), (0x4000, 0x1234)] [])
      (fun t => (t.reg 1, t.cond)) = some (0x1234, 0x0001) := by decide
theorem test_ldi_polls :
    after (startIo 0x3000 [(0x3000, 0xA201), (0x3002, 0xFE00)] [] [0x61] [true])
      (fun t => (t.reg 1, t.cond, t.mem.read 0xFE02)) = some (0x8000, 0x0004, 0x0061) := by decide
-- M3, M4
theorem test_ldr_polls_idle :
    after (startIo 0x3000 [(0x3000, 0x6040), (0xFE02, 0x0055)] [(1, 0xFE00)] [] [false])
      (fun t => (t.reg 0, t.cond, t.mem.read 0xFE00, t.mem.read 0xFE02))
      = some (0x0000, 0x0002, 0x0000, 0x0055) := by decide
theorem test_ldr_polls_ready :
    after (startIo 0x3000 [(0x3000, 0x6040)] [(1, 0xFE00)] [0x78] [true])
      (fun t => (t.reg 0, t.cond, t.mem.read 0xFE02, t.io.inq))
      = some (0x8000, 0x0004, 0x0078, []) := by decide
-- M12, M13
theorem test_lea_wraps :
    after (start 0xFFFF [(0xFFFF, 0xE000)] [(0, 5)]) (fun t => (t.reg 0, t.cond))
      = some (0x0000, 0x0002) := by decide
theorem test_lea_negative :
    after (start 0x8000 [(0x8000, 0xE3FF)] []) (fun t => (t.reg 1, t.cond))
      = some (0x8000, 0x0004) := by decide
-- M14
theorem test_st :
    after (start 0x3000 [(0x3000, 0x33FE)] [(1, 0x1234)]) (fun t => (t.mem.read 0x2FFF, t.cond))
      = some (0x1234, 0x0002) := by decide
-- M16
theorem test_sti :
    after (start 0x3000 [(0x3000, 0xB203), (0x3004, 0x5000)] [(1, 0x00AA)])
      (fun t => (t.mem.read 0x5000, t.cond)) = some (0x00AA, 0x0002) := by decide
-- M17, M18
theorem test_str :
    after (start 0x3000 [(0x3000, 0x7942)] [(5, 0x4000), (4, 0xBEEF)]) (fun t => t.mem.read 0x4002)
      = some 0xBEEF := by decide
theorem test_str_same_register :
    after (start 0x3000 [(0x3000, 0x7920)] [(4, 0x6000)]) (fun t => t.mem.read 0x5FE0)
      = some 0x6000 := by decide
-- T1, T3
theorem test_getc :
    after (startIo 0x3000 [(0x3000, 0xF020)] [] [0x41] [])
      (fun t => (t.reg 0, t.cond, t.reg 7, t.io.output)) = some (0x0041, 0x0001, 0x3001, []) := by
  decide
theorem test_getc_zero_extends :
    after (startIo 0x3000 [(0x3000, 0xF020)] [] [0xFF] []) (fun t => (t.reg 0, t.cond))
      = some (0x00FF, 0x0001) := by decide
-- T4
theorem test_out :
    after (start 0x3000 [(0x3000, 0xF021)] [(0, 0x1F48)])
      (fun t => (t.io.output, t.reg 0, t.reg 7)) = some ([0x48], 0x1F48, 0x3001) := by decide
-- S8, T6
theorem test_puts :
    after (start 0x3000 [(0x3000, 0xF022), (0x4000, 0x48), (0x4001, 0x49)] [(0, 0x4000)])
      (fun t => t.io.output) = some [0x48, 0x49] := by decide
theorem test_puts_wraps :
    after (start 0x3000 [(0x3000, 0xF022), (0xFFFF, 0x41), (0x0000, 0x42)] [(0, 0xFFFF)])
      (fun t => t.io.output) = some [0x41, 0x42] := by decide
-- T8
theorem test_in :
    after (startIo 0x3000 [(0x3000, 0xF023)] [] [0x37] [])
      (fun t => (t.io.output, t.reg 0, t.cond))
      = some (defaultInPrompt ++ [0x37], 0x0037, 0x0001) := by decide
-- R215, R219: a blocked IN has written its prompt
theorem test_in_blocked_has_prompted :
    (match step ((atEnd .stuck).withFetchWord 16 0xF023) with
      | .fault (.readNeverCompletes io) => some io.output
      | _ => none) = some defaultInPrompt := by decide
-- T9, T10
theorem test_putsp :
    after (start 0x3000 [(0x3000, 0xF024), (0x4000, 0x4948), (0x4001, 0x0021)] [(0, 0x4000)])
      (fun t => t.io.output) = some [0x48, 0x49, 0x21] := by decide
theorem test_putsp_zero_low_byte :
    after (start 0x3000 [(0x3000, 0xF024), (0x4000, 0x4100)] [(0, 0x4000)])
      (fun t => t.io.output) = some [0x00, 0x41] := by decide
-- T12
theorem test_halt :
    after (start 0x3000 [(0x3000, 0xFF25)] [])
      (fun t => (t.run, t.reg 7, t.pc, t.io.output, t.io.flushed))
      = some (.halted, 0x3001, 0x3001, defaultHaltNotice, 5) := by decide
-- T13
theorem test_trap_invalid :
    after (start 0x3000 [(0x3000, 0xF026)] []) (fun t => t.run)
      = some (.fatal ⟨.invalidTrapVector 0x26, 0xF026, 0x3000⟩) := by decide
-- X2
theorem test_rti :
    after (start 0x3000 [(0x3000, 0x8FFF)] []) (fun t => t.run)
      = some (.fatal ⟨.invalidOpcode 0x8, 0x8FFF, 0x3000⟩) := by decide
-- X3
theorem test_res :
    after (start 0x4000 [(0x4000, 0xD123)] []) (fun t => t.run)
      = some (.fatal ⟨.invalidOpcode 0xD, 0xD123, 0x4000⟩) := by decide

/-! ## Witnesses: for every statement with hypotheses, a state and operands that meet them -/

/-- A memory whose first `n` words are 1. -/
def ones (n : Nat) : Memory := (List.range n).map fun k => (k, 1)

theorem lookup_map_range' (b n k : Nat) :
    Memory.lookup ((List.range' b n).map fun k => (k, 1)) k =
      if b ≤ k ∧ k < b + n then 1 else unlistedWord := by
  induction n generalizing b with
  | zero => simp [Memory.lookup]
  | succ n ih =>
    simp only [List.range'_succ, List.map_cons, Memory.lookup, ih]
    by_cases hk : k = b
    · simp [hk]
    · by_cases h : b + 1 ≤ k ∧ k < b + 1 + n
      · rw [if_neg hk, if_pos h, if_pos (by omega)]
      · rw [if_neg hk, if_neg h, if_neg (by omega)]

theorem read_ones (n : Nat) (a : Word) :
    (ones n).read a = if a.toNat < n then 1 else unlistedWord := by
  have h := lookup_map_range' 0 n a.toNat
  simp only [Nat.zero_le, true_and, Nat.zero_add] at h
  rw [← h, ones, List.range_eq_range', Memory.read]

/-- The reset state over such a memory; R0 is 0, so PUTS and PUTSP start at address 0. -/
def onesState (n : Nat) : State := { State.reset with mem := ones n }

theorem mem_onesState (n : Nat) : (onesState n).mem = ones n := rfl

theorem read_onesState (n k : Nat) (hk : k < 65536) :
    (onesState n).mem.read ((onesState n).reg 0 + BitVec.ofNat 16 k) =
      if k < n then 1 else unlistedWord := by
  have h0 : (onesState n).reg 0 + BitVec.ofNat 16 k = BitVec.ofNat 16 k := BitVec.zero_add _
  have hk' : (BitVec.ofNat 16 k).toNat = k := by
    rw [BitVec.toNat_ofNat]
    exact Nat.mod_eq_of_lt hk
  rw [h0, mem_onesState, read_ones, hk']

theorem witness_DecodeAndEncodeAgree :
    Instr.wf (.addReg 7 0 3 7) = true ∧ Instr.wf (.trapInvalid 0 0x26) = true := by decide

theorem witness_IgnoredBitsHaveNoEffect :
    (0x1042 : Word) &&& readMask 0x1042 = 0x105A &&& readMask 0x1042 ∧
    (0xC1C0 : Word) &&& readMask 0xC1C0 = 0xCFFF &&& readMask 0xC1C0 ∧
    (0xF025 : Word) &&& readMask 0xF025 = 0xFF25 &&& readMask 0xF025 := by decide

theorem witness_FatalExactlyForIllegalWords :
    State.reset.run = .running ∧ (∃ t, exec (decode 0xF026) State.reset = .next t ∧
      ∃ info, t.run = .fatal info) ∧ ∃ t, exec (decode 0xF025) State.reset = .next t :=
  ⟨rfl, ⟨_, rfl, _, rfl⟩, _, rfl⟩

theorem witness_SignExtensionOfLowBits :
    (0x0010 : Word).getLsbD (5 - 1) = true ∧ (0x000F : Word).getLsbD (5 - 1) = false := by decide

theorem witness_CondWrittenOnlyByListedInstructions :
    (∃ t, exec (.ld 3 0) State.reset = .next t ∧ t.run ≠ .aborted ∧ ¬ t.Fatal ∧
      Instr.condFrom (.ld 3 0) = some 3) ∧
    ∃ t, exec (.st 3 0) State.reset = .next t ∧ t.run ≠ .aborted ∧ ¬ t.Fatal ∧
      Instr.condFrom (.st 3 0) = none :=
  ⟨⟨_, rfl, by decide, State.not_fatal_of_running rfl, rfl⟩,
    _, rfl, by decide, State.not_fatal_of_running rfl, rfl⟩

theorem witness_OnlyBranchReadsCond :
    (∀ nzp off9, Instr.jmp 0 7 0 ≠ .br nzp off9) ∧
    ∃ t, exec (.jmp 0 7 0) State.reset = .next t ∧ ¬ t.Fatal :=
  ⟨nofun, _, rfl, State.not_fatal_of_running rfl⟩

theorem witness_CondStaysOneHot :
    State.reset.CondLegal ∧ ∃ t, step State.reset = .next t ∧ ¬ t.Fatal :=
  ⟨Or.inr (Or.inl rfl), _, rfl, State.not_fatal_of_running rfl⟩

theorem witness_AddRegister :
    opcodeField 0x1042 = 0b0001 ∧ (0x1042 : Word).getLsbD 5 = false := by decide

theorem witness_AddImmediate :
    opcodeField 0x1261 = 0b0001 ∧ (0x1261 : Word).getLsbD 5 = true := by decide

theorem witness_AndRegister :
    opcodeField 0x5642 = 0b0101 ∧ (0x5642 : Word).getLsbD 5 = false := by decide

theorem witness_AndImmediate :
    opcodeField 0x5020 = 0b0101 ∧ (0x5020 : Word).getLsbD 5 = true := by decide

theorem witness_NotComplements : opcodeField 0x92BF = 0b1001 := by decide

/-- The two ends of the range in which the signed sum fits, for both modes. -/
theorem witness_AddWrapsWithoutTrap :
    (let s := start 0 [] [(1, 0x7FFE), (2, 1)]
     (s.reg 1).toInt + (s.reg 2).toInt = 32767 ∧ (s.reg 1).toInt + (1 : BitVec 5).toInt = 32767) ∧
    (let s := start 0 [] [(1, 0x8001), (2, 0xFFFF)]
     (s.reg 1).toInt + (s.reg 2).toInt = -32768 ∧
       (s.reg 1).toInt + (0x1F : BitVec 5).toInt = -32768) := by decide

/-- S3. -/
theorem witness_ImmediateAndRegisterModesAgree :
    (start 0 [] [(1, 0x0010), (2, 0xFFFD)]).reg 2 = sext (0b11101 : BitVec 5) := by decide

theorem witness_BranchOnMatchingFlag :
    opcodeField 0x0C05 = 0b0000 ∧ State.reset.CondLegal :=
  ⟨by decide, Or.inr (Or.inl rfl)⟩

theorem witness_JumpThroughRegister : opcodeField 0xC1C0 = 0b1100 := by decide

theorem witness_CallPcRelative :
    opcodeField 0x4810 = 0b0100 ∧ (0x4810 : Word).getLsbD 11 = true := by decide

theorem witness_CallThroughRegister :
    opcodeField 0x4080 = 0b0100 ∧ (0x4080 : Word).getLsbD 11 = false := by decide

/-- The address just above KBSR, and an address that is KBSR. -/
theorem witness_LoadPcRelative :
    opcodeField 0x2002 = 0b0010 ∧
    (start 0xFE00 [] []).pc + (1 : BitVec 9).signExtend 16 ≠ 0xFE00 ∧
    (start 0xFE00 [] []).pc + (0 : BitVec 9).signExtend 16 = 0xFE00 := by decide

theorem witness_LoadIndirect :
    opcodeField 0xA201 = 0b1010 ∧
    (let s := start 0x3001 [(0x3002, 0xFE01)] []
     s.pc + (1 : BitVec 9).signExtend 16 ≠ 0xFE00 ∧
       s.mem.read (s.pc + (1 : BitVec 9).signExtend 16) ≠ 0xFE00) ∧
    ∃ p r, State.reset.memRead (State.reset.pc + (1 : BitVec 9).signExtend 16) = (p, r) :=
  ⟨by decide, by decide, _, _, rfl⟩

theorem witness_LoadBaseOffset :
    opcodeField 0x64FF = 0b0110 ∧
    (start 0 [] [(1, 0xFE00)]).reg 1 + (0x3F : BitVec 6).signExtend 16 ≠ 0xFE00 := by decide

theorem witness_LoadEffectiveAddress : opcodeField 0xE005 = 0b1110 := by decide

theorem witness_StorePcRelative : opcodeField 0x33FE = 0b0011 := by decide

theorem witness_StoreIndirect :
    opcodeField 0xB203 = 0b1011 ∧
    (start 0xFE00 [] []).pc + (1 : BitVec 9).signExtend 16 ≠ 0xFE00 ∧
    ∃ p r, State.reset.memRead (State.reset.pc + (1 : BitVec 9).signExtend 16) = (p, r) :=
  ⟨by decide, by decide, _, _, rfl⟩

theorem witness_StoreBaseOffset : opcodeField 0x7942 = 0b0111 := by decide

/-- A state whose next blocking read the host aborts. -/
def abortedRead : State := { startIo 0x3001 [] [] [0x41] [] with hostAbort := some .duringRead }

/-- A byte, no byte under each `EOF_POLICY`, and the host's abort. -/
theorem witness_GetcReadsOneCharacter :
    (opcodeField 0xF020 = 0b1111 ∧ (0xF020 : Word).extractLsb' 0 8 = 0x20) ∧
    ((startIo 0x3001 [] [] [0x41] []).hostAbort ≠ some .duringRead ∧
      ∃ c io, (startIo 0x3001 [] [] [0x41] []).io.takeByte = some (c, io)) ∧
    ((atEnd (.value 0xFFFF)).hostAbort ≠ some .duringRead ∧
      (atEnd (.value 0xFFFF)).io.takeByte = none ∧
      (atEnd (.value 0xFFFF)).params.eofPolicy = .value 0xFFFF) ∧
    ((atEnd .stuck).hostAbort ≠ some .duringRead ∧ (atEnd .stuck).io.takeByte = none ∧
      (atEnd .stuck).params.eofPolicy = .stuck) ∧
    abortedRead.hostAbort = some .duringRead :=
  ⟨by decide, ⟨by decide, _, _, rfl⟩, ⟨by decide, rfl, rfl⟩, ⟨by decide, rfl, rfl⟩, rfl⟩

theorem witness_InPromptsReadsAndEchoes :
    (opcodeField 0xF023 = 0b1111 ∧ (0xF023 : Word).extractLsb' 0 8 = 0x23) ∧
    ((startIo 0x3001 [] [] [0x00] []).hostAbort ≠ some .duringRead ∧
      ∃ c io, (startIo 0x3001 [] [] [0x00] []).io.takeByte = some (c, io)) ∧
    ((atEnd (.value 0x0100)).hostAbort ≠ some .duringRead ∧
      (atEnd (.value 0x0100)).io.takeByte = none ∧
      (atEnd (.value 0x0100)).params.eofPolicy = .value 0x0100) ∧
    ((atEnd .stuck).hostAbort ≠ some .duringRead ∧ (atEnd .stuck).io.takeByte = none ∧
      (atEnd .stuck).params.eofPolicy = .stuck) ∧
    abortedRead.hostAbort = some .duringRead :=
  ⟨by decide, ⟨by decide, _, _, rfl⟩, ⟨by decide, rfl, rfl⟩, ⟨by decide, rfl, rfl⟩, rfl⟩

theorem witness_OutWritesLowByte :
    opcodeField 0xF021 = 0b1111 ∧ (0xF021 : Word).extractLsb' 0 8 = 0x21 := by decide

/-- The empty string and the longest one: only the last word of memory is zero. -/
theorem witness_PutsWritesStringUpToZeroWord :
    (opcodeField 0xF022 = 0b1111 ∧ (0xF022 : Word).extractLsb' 0 8 = 0x22) ∧
    State.reset.mem.read (State.reset.reg 0 + BitVec.ofNat 16 0) = 0 ∧
    (∀ k, k < 65535 → (onesState 65535).mem.read ((onesState 65535).reg 0 + BitVec.ofNat 16 k) ≠ 0) ∧
    (onesState 65535).mem.read ((onesState 65535).reg 0 + BitVec.ofNat 16 65535) = 0 := by
  refine ⟨by decide, by decide, fun k hk => ?_, ?_⟩
  · rw [read_onesState _ _ (by omega), if_pos hk]; decide
  · rw [read_onesState _ _ (by omega)]; rfl

theorem witness_PutspWritesPackedString :
    (opcodeField 0xF024 = 0b1111 ∧ (0xF024 : Word).extractLsb' 0 8 = 0x24) ∧
    (∀ k, k < 2 → (onesState 2).mem.read ((onesState 2).reg 0 + BitVec.ofNat 16 k) ≠ 0) ∧
    (onesState 2).mem.read ((onesState 2).reg 0 + BitVec.ofNat 16 2) = 0 := by
  refine ⟨by decide, fun k hk => ?_, ?_⟩
  · rw [read_onesState _ _ (by omega), if_pos hk]; decide
  · rw [read_onesState _ _ (by omega)]; rfl

/-- R221: what a string without an end writes, before, within and after a period. -/
theorem test_endless_output :
    (let f := Fault.stringNeverEnds { State.reset.io with output := [0x21] } [0x48, 0x49]
     [0, 1, 2, 3, 4].map f.outputByte)
      = [some 0x21, some 0x48, some 0x49, some 0x48, some 0x49] := by decide

/-- A memory without a zero word, and one with a zero word. -/
theorem witness_StringRoutinesEndIffZeroWord :
    (∀ a, (onesState 65536).mem.read a ≠ 0) ∧ ∃ a, State.reset.mem.read a = 0 := by
  refine ⟨fun a => ?_, 0, rfl⟩
  rw [mem_onesState, read_ones,
    if_pos (by have := a.isLt; omega)]
  decide

theorem witness_HaltNotifiesFlushesAndStops :
    opcodeField 0xF025 = 0b1111 ∧ (0xF025 : Word).extractLsb' 0 8 = 0x25 := by decide

theorem witness_InvalidVectorIsFatal :
    opcodeField 0xF01F = 0b1111 ∧ (0xF01F : Word).extractLsb' 0 8 ∉ recognisedVectors ∧
    opcodeField 0xF026 = 0b1111 ∧ (0xF026 : Word).extractLsb' 0 8 ∉ recognisedVectors := by decide

theorem witness_RtiIsFatal : opcodeField 0x8FFF = 0b1000 := by decide

theorem witness_ReservedOpcodeIsFatal : opcodeField 0xD123 = 0b1101 := by decide

theorem witness_OnlyKbsrReadHasSideEffect : (0xFE01 : Word) ≠ 0xFE00 ∧ (0xFDFF : Word) ≠ 0xFE00 := by
  decide

/-- Input pending, and none. -/
theorem witness_KbsrReadPollsKeyboard :
    (startIo 0 [] [] [0x78] [true]).io.poll.1 = true ∧
    (startIo 0 [] [] [0x78] [false]).io.poll.1 = false ∧
    ∃ v t, State.reset.memRead 0xFE00 = (v, t) :=
  ⟨by decide, by decide, _, _, rfl⟩

theorem witness_TerminalPollAndRead :
    (startIo 0 [] [] [0x78] [true]).io.poll.1 = true ∧
    (startIo 0 [] [] [0x78] [true]).io.polls = [true] ∧ State.reset.io.polls = [] ∧
    (startIo 0 [] [] [0x78] [true]).io.inq = [0x78] := by decide

theorem witness_EqualMemoriesAreEqualData :
    Memory.wf [] = true ∧ Memory.wf [(0, 1), (65535, 0xFFFF)] = true := by decide

/-- The ill-formed memories the canonical form refuses. -/
theorem test_memory_wf_refuses :
    Memory.wf [(1, 1), (0, 1)] = false ∧ Memory.wf [(0, 1), (0, 1)] = false ∧
    Memory.wf [(0, 0)] = false ∧ Memory.wf [(65536, 1)] = false := by decide

theorem witness_StoreIsSeenByNextFetch :
    (0xFE02 : Word) ≠ 0xFE00 ∧ (0x3001 : Word) ≠ 0x3000 ∧ (start 0xFE02 [] []).pc = 0xFE02 := by
  decide

/-- An image that ends with the last word of memory, and one that would pass it. -/
theorem witness_LoaderPlacesImageThatFits :
    (0xFFFE : Word).toNat + ([1, 2] : List Word).length = 65536 ∧
    65536 < (0xFFFE : Word).toNat + ([1, 2, 3] : List Word).length ∧
    Memory.wf State.reset.mem = true ∧ (0xFFFD : Word).toNat < (0xFFFE : Word).toNat ∧
    0x3000 + ([1, 2] : List Word).length ≤ (0x3002 : Word).toNat := by decide

theorem witness_StepRunsDecodedInstruction :
    State.reset.run = .running ∧ State.reset.hostAbort ≠ some .boundary ∧
    (∃ w r, State.reset.memRead State.reset.pc = (w, r) ∧ decode w = .br 0 0) :=
  ⟨rfl, by decide, _, _, rfl, rfl⟩

theorem witness_FetchFromKbsrPolls :
    (let s := startIo 0xFE00 [] [] [0x41] [true]
     s.run = .running ∧ s.hostAbort ≠ some .boundary ∧ s.pc = 0xFE00 ∧ s.io.poll.1 = true) ∧
    (let s := startIo 0xFE00 [] [] [0x41] [false]
     s.run = .running ∧ s.hostAbort ≠ some .boundary ∧ s.pc = 0xFE00 ∧ s.io.poll.1 = false) := by
  decide

/-- Steps that end RUNNING, HALTED, FATAL and ABORTED; states in which no step is taken; and the two
ways a running machine does not step on. -/
theorem witness_RunLeavesRunningOnlyAsListed :
    after State.reset (fun t => t.run) = some .running ∧
    after (start 0x3000 [(0x3000, 0xF025)] []) (fun t => t.run) = some .halted ∧
    after (start 0x3000 [(0x3000, 0x8000)] []) (fun t => t.run)
      = some (.fatal ⟨.invalidOpcode 8, 0x8000, 0x3000⟩) ∧
    after (State.reset.withFetchWord 16 0xF023) (fun t => t.run) = some .running ∧
    after { State.reset with hostAbort := some .boundary } (fun t => t.run) = some .aborted ∧
    after { State.reset with run := .halted } (fun t => t.run) = none ∧
    after { State.reset with run := .aborted } (fun t => t.run) = none ∧
    after ((atEnd .stuck).withFetchWord 16 0xF020) (fun t => t.run) = none := by decide

theorem witness_OnlyListedRegistersWritten :
    ∃ t, exec (.addImm 0 0 5) State.reset = .next t ∧ ¬ t.Fatal :=
  ⟨_, rfl, State.not_fatal_of_running rfl⟩

/-- A step of ADD R0,R0,#5 from reset. -/
def addStep : State := start 0x3000 [(0x3000, 0x1025)] []

theorem witness_PcWrittenOnlyByControlTransfer :
    ∃ t, step addStep = .next t ∧ t.run ≠ .aborted ∧ ¬ t.Fatal ∧
      decode addStep.fetch.1 = .addImm 0 0 5 :=
  ⟨_, rfl, by decide, State.not_fatal_of_running rfl, by decide⟩

theorem witness_MemoryChangedOnlyByStores :
    ∃ t, step addStep = .next t ∧ ¬ t.Fatal ∧ decode addStep.fetch.1 = .addImm 0 0 5 :=
  ⟨_, rfl, State.not_fatal_of_running rfl, by decide⟩

/-- PUTS over a memory without a zero word. -/
theorem step_endless (s : State) (hp : s.pc ≠ kbsr) (h : ∀ a, s.mem.read a ≠ 0) :
    ∃ io period, step (s.withFetchWord 16 0xF022) = .fault (.stringNeverEnds io period) := by
  rw [step_withFetchWord s 16 _ hp,
    show decode (BitVec.ofNat 16 0xF022) = .trapPuts 0 by decide]
  refine ⟨_, _, State.writeString_endless (fun a => ?_) putsBytes⟩
  show (s.mem.write s.pc (BitVec.ofNat 16 0xF022)).read a ≠ 0
  rw [Memory.read_write]
  split
  · decide
  · exact h a

theorem witness_OutputOnlyGrows :
    (start 0x3000 [(0x3000, 0xF025)] []).io.flushed
      ≤ (start 0x3000 [(0x3000, 0xF025)] []).io.output.length ∧
    (∃ t, step (start 0x3000 [(0x3000, 0xF025)] []) = .next t) ∧
    (∃ io, step ((atEnd .stuck).withFetchWord 16 0xF023) = .fault (.readNeverCompletes io)) ∧
    ∃ io period, step ((onesState 65536).withFetchWord 16 0xF022)
      = .fault (.stringNeverEnds io period) :=
  ⟨by decide, ⟨_, rfl⟩, ⟨_, rfl⟩,
    step_endless _ (by decide) witness_StringRoutinesEndIffZeroWord.1⟩

theorem witness_HaltedOutputIsWholeTrace :
    State.Inv { State.reset with run := .halted } ∧
      ({ State.reset with run := .halted } : State).run = .halted :=
  ⟨⟨fun _ => Or.inr (Or.inl rfl), fun _ => rfl, by decide, fun _ => rfl⟩, rfl⟩

/-- An abort at the boundary, and one in IN's read after the prompt was written. -/
theorem witness_AbortDiscardsTheStep :
    after { State.reset with hostAbort := some .boundary } (fun t => t.run) = some .aborted ∧
    after ({ abortedRead with pc := 0x3000 }.withFetchWord 16 0xF023)
      (fun t => (t.run, t.pc, t.reg 7, t.io.output)) = some (.aborted, 0x3000, 0, defaultInPrompt) :=
  by decide

theorem witness_AbortAtBoundaryEndsRun :
    ({ State.reset with hostAbort := some .boundary } : State).run = .running ∧
    ({ State.reset with hostAbort := some .boundary } : State).hostAbort = some .boundary := by
  decide

theorem witness_ParametersFixedForRun : ∃ t, step addStep = .next t := ⟨_, rfl⟩

theorem witness_StepKeepsInvariant :
    State.Inv addStep ∧ ∃ t, step addStep = .next t :=
  ⟨⟨fun _ => Or.inr (Or.inl rfl), fun _ => by decide, by decide, fun h => by cases h⟩, _, rfl⟩

theorem witness_ResetSatisfiesInvariant :
    Memory.wf defaultBoot.memInit = true ∧ Memory.wf [(0, 1), (65535, 1)] = true := by decide

end Sys2Proof.Tests
end

section
/-! Sign extension of a word's low bits (spec/00_scope.md R15). -/

namespace Sys2Proof.Machine

/-- R15 bit by bit: below `n` the word's own bit, from `n` on the sign bit `n - 1`. -/
theorem getLsbD_sext_setWidth (v : Word) {n k : Nat} (hn : 0 < n) (hk : k < 16) :
    (sext (v.setWidth n)).getLsbD k = v.getLsbD (if k < n then k else n - 1) := by
  rw [sext, BitVec.getLsbD_signExtend]
  by_cases h : k < n
  · simp [h, hk]
  · simp [h, hk, hn, BitVec.msb_eq_getLsbD_last]

/-- The mask of R15's word form, which the statement shifts as a number, has the bits from `n` on. -/
theorem getLsbD_signMask {n k : Nat} (hk : k < 16) :
    ((0xFFFF <<< n : Nat) : Word).getLsbD k = decide (n ≤ k) := by
  have hj : k - n < 16 := by omega
  rw [BitVec.natCast_eq_ofNat, BitVec.getLsbD_ofNat, Nat.testBit_shiftLeft,
    show 0xFFFF = 2 ^ 16 - 1 from rfl, Nat.testBit_two_pow_sub_one]
  simp [hk, hj]

/-- R15 as a word: the low `n` bits, with every bit from `n` on set when the sign bit is. -/
theorem sext_setWidth_eq (v : Word) {n : Nat} (hn : 0 < n) :
    sext (v.setWidth n) = if v.getLsbD (n - 1) then
        (v.setWidth n).setWidth 16 ||| ((0xFFFF <<< n : Nat) : Word)
      else (v.setWidth n).setWidth 16 := by
  apply BitVec.eq_of_getLsbD_eq
  intro k hk
  rw [getLsbD_sext_setWidth v hn hk]
  cases hs : v.getLsbD (n - 1)
  · by_cases h : k < n <;> simp [h, hk, hs]
  · rw [if_pos rfl, BitVec.getLsbD_or, getLsbD_signMask hk]
    by_cases h : k < n
    · simp [h, hk, Nat.not_le.2 h]
    · simp [h, hs, Nat.not_lt.1 h]

/-- Settles O5: the two forms of R15, of which the four widths need only that they are positive. -/
theorem signExtensionOfLowBits : Obligations.SignExtensionOfLowBits := by
  intro n hwidth v
  have hn : 0 < n := by omega
  exact ⟨sext_setWidth_eq v hn, fun _ hk => getLsbD_sext_setWidth v hn hk⟩

end Sys2Proof.Machine
end

section
/-! The parameters and the host's request, which nothing in the core writes (spec/00_scope.md R10,
spec/60_exceptions.md R262). -/

namespace Sys2Proof.Machine

/-- What the core is only given: `t` has the parameters and the host's abort request of `s`. -/
structure GivenKept (s t : State) : Prop where
  params : t.params = s.params
  hostAbort : t.hostAbort = s.hostAbort

/-- A blocking read keeps what is given when its routine does, for whatever character and input it
goes on with. -/
theorem GivenKept.of_readCharThen {entry now t : State} {k : Word → State → Result}
    (h : entry.readCharThen now k = .next t)
    (hk : ∀ c io, k c { now with io := io } = .next t → GivenKept entry t) : GivenKept entry t := by
  obtain ⟨-, e⟩ | ⟨-, ⟨c, io, -, e⟩ | ⟨-, v, -, e⟩ | ⟨-, -, e⟩⟩ :=
    entry.readCharThen_cases now k <;> rw [e] at h
  · cases h
    exact ⟨State.params_abortInStep entry now, State.hostAbort_abortInStep entry now⟩
  · exact hk _ _ h
  · exact hk v now.io h
  · cases h

/-- The string routine of PUTS and PUTSP keeps what is given. -/
theorem GivenKept.of_writeString {s t : State} {f : Word → List Byte}
    (h : s.writeString f = .next t) : GivenKept s t := by
  obtain ⟨bs, -, e⟩ | ⟨-, e⟩ := s.writeString_cases f <;> rw [e] at h <;> cases h
  exact ⟨State.params_writeChars s bs, State.hostAbort_writeChars s bs⟩

theorem GivenKept.of_execTrapGetc {s t : State} (h : execTrapGetc s = .next t) :
    GivenKept s t := by
  refine GivenKept.of_readCharThen h fun c io hk => ?_
  cases hk
  exact ⟨rfl, rfl⟩

theorem GivenKept.of_execTrapIn {s t : State} (h : execTrapIn s = .next t) : GivenKept s t := by
  refine GivenKept.of_readCharThen h fun c io hk => ?_
  cases hk
  exact ⟨rfl, rfl⟩

/-- Every instruction keeps what is given. -/
theorem GivenKept.of_exec {i : Instr} {s t : State} (h : exec i s = .next t) : GivenKept s t := by
  cases i with
  | trapGetc => exact .of_execTrapGetc h
  | trapIn => exact .of_execTrapIn h
  | trapPuts | trapPutsp =>
    obtain ⟨hp, ha⟩ := GivenKept.of_writeString h
    exact ⟨hp, ha⟩
  | br nzp off9 =>
    cases h
    constructor <;> split <;> rfl
  | ld | ldi | ldr | sti =>
    cases h
    constructor <;> simp [State.loadFrom, State.indirect]
  | addReg | addImm | andReg | andImm | not | lea | jmp | jsr | jsrr | st | str | trapOut
  | trapHalt | trapInvalid | rti | res =>
    cases h
    exact ⟨rfl, rfl⟩

/-- Settles O56: the abort at a boundary writes the run state alone, and otherwise the fetch and the
instruction each keep what is given. -/
theorem parametersFixedForRun : Obligations.ParametersFixedForRun := by
  intro s t h
  obtain ⟨-, ⟨-, rfl⟩ | ⟨-, he⟩⟩ := step_next h
  · exact ⟨State.params_abortAtBoundary s, State.hostAbort_abortAtBoundary s⟩
  · obtain ⟨hp, ha⟩ := GivenKept.of_exec he
    simp only [State.fetch_snd, State.params_touch, State.hostAbort_touch] at hp ha
    exact ⟨hp, ha⟩

end Sys2Proof.Machine
end

section
/-! What an instruction can do to the state it starts from, said once (spec/10_state.md R31, R35,
R39, R42; spec/60_exceptions.md R250, R262). -/

namespace Sys2Proof

/-- The instructions that write PC (R35). -/
inductive Instr.WritesPc : Instr → Prop
  | br (nzp : BitVec 3) (off9 : BitVec 9) : WritesPc (.br nzp off9)
  | jmp (ignHi : BitVec 3) (baseR : Reg) (ignLo : BitVec 6) : WritesPc (.jmp ignHi baseR ignLo)
  | jsr (off11 : BitVec 11) : WritesPc (.jsr off11)
  | jsrr (ignHi : BitVec 2) (baseR : Reg) (ignLo : BitVec 6) : WritesPc (.jsrr ignHi baseR ignLo)

/-- The instructions that end a run FATAL (R218, R240, R241). -/
inductive Instr.RaisesFatal : Instr → Prop
  | rti (ign : BitVec 12) : RaisesFatal (.rti ign)
  | res (ign : BitVec 12) : RaisesFatal (.res ign)
  | trapInvalid (ign : BitVec 4) (vector : BitVec 8) : RaisesFatal (.trapInvalid ign vector)

theorem Instr.WritesPc.condFrom_eq_none {i : Instr} (h : i.WritesPc) : i.condFrom = none := by
  cases h <;> rfl

theorem Instr.RaisesFatal.cases {i : Instr} (h : i.RaisesFatal) :
    (∃ ign, i = .rti ign) ∨ (∃ ign, i = .res ign) ∨ ∃ ign vector, i = .trapInvalid ign vector := by
  cases h with
  | rti ign => exact .inl ⟨ign, rfl⟩
  | res ign => exact .inr (.inl ⟨ign, rfl⟩)
  | trapInvalid ign vector => exact .inr (.inr ⟨ign, vector, rfl⟩)

end Sys2Proof

namespace Sys2Proof.Machine

/-- `t` differs from `s` at most in the registers named, in the words of a memory that stays
canonical, in the input taken, and in bytes appended to the output trace. -/
structure OnlyData (written : List Reg) (s t : State) : Prop where
  regs : RegsKept written s t
  pc : t.pc = s.pc
  cond : t.cond = s.cond
  mem_wf : s.mem.wf = true → t.mem.wf = true
  run : t.run = s.run
  output : s.io.output <+: t.io.output
  flushed : t.io.flushed = s.io.flushed
  hostAbort : t.hostAbort = s.hostAbort

namespace OnlyData

variable {written : List Reg} {s u : State}

theorem refl (written : List Reg) (s : State) : OnlyData written s s :=
  ⟨fun _ _ => rfl, rfl, rfl, id, rfl, ⟨[], List.append_nil _⟩, rfl, rfl⟩

/-- A read through the adapter, KBSR's poll included (R64). -/
theorem touch (h : OnlyData written s u) (a : Word) : OnlyData written s (u.touch a) where
  regs r hr := (u.reg_touch a r).trans (h.regs r hr)
  pc := (u.pc_touch a).trans h.pc
  cond := (u.cond_touch a).trans h.cond
  mem_wf hw := State.wf_touch (h.mem_wf hw) a
  run := (u.run_touch a).trans h.run
  output := (u.output_touch a).symm ▸ h.output
  flushed := (u.flushed_touch a).trans h.flushed
  hostAbort := (u.hostAbort_touch a).trans h.hostAbort

theorem memWrite (h : OnlyData written s u) (a v : Word) : OnlyData written s (u.memWrite a v) :=
  { h with mem_wf := fun hw => Memory.wf_write (h.mem_wf hw) a v }

theorem setReg (h : OnlyData written s u) {r : Reg} (hr : r ∈ written) (v : Word) :
    OnlyData written s (u.setReg r v) :=
  { h with
    regs := fun q hq => (u.reg_setReg_ne v fun e => hq (by rwa [e])).trans (h.regs q hq) }

theorem writeChars (h : OnlyData written s u) (bs : List Byte) :
    OnlyData written s (u.writeChars bs) :=
  { h with output := h.output.trans ⟨bs, rfl⟩ }

theorem takeByte (h : OnlyData written s u) {c : Byte} {io : Io}
    (ht : u.io.takeByte = some (c, io)) : OnlyData written s { u with io := io } := by
  obtain ⟨hout, hfl, -, -⟩ := Io.takeByte_kept ht
  exact { h with output := hout.symm ▸ h.output, flushed := hfl.trans h.flushed }

/-- Trap entry (R210), for an instruction that may write R7. -/
theorem enterTrap (s : State) (hr : 7 ∈ written) : OnlyData written s s.enterTrap :=
  (refl written s).setReg hr s.pc

theorem flushed_le (h : OnlyData written s u) (hs : s.io.flushed ≤ s.io.output.length) :
    u.io.flushed ≤ u.io.output.length :=
  h.flushed.trans_le (hs.trans h.output.length_le)

end OnlyData

/-- The ways in which an instruction answers a next state. -/
inductive Effect (i : Instr) (s : State) : State → Prop
  /-- No flag, no PC and no run state is written. -/
  | keeps {t : State} (hc : i.condFrom = none) (ht : OnlyData i.regsWritten s t) : Effect i s t
  /-- A value goes to the destination and its flag to COND (R39). -/
  | result {u : State} {dr : Reg} (v : Word) (hc : i.condFrom = some dr)
    (hr : dr ∈ i.regsWritten) (hu : OnlyData i.regsWritten s u) : Effect i s (u.writeResult dr v)
  /-- PC is written (R35). -/
  | jumps {u : State} (target : Word) (hi : i.WritesPc) (hu : OnlyData i.regsWritten s u) :
    Effect i s { u with pc := target }
  /-- HALT flushes the trace and ends the run (R217). -/
  | halts {u : State} (ign : BitVec 4) (hi : i = .trapHalt ign)
    (hu : OnlyData i.regsWritten s u) : Effect i s { u.flush with run := .halted }
  /-- A fatal error ends the run (R250). -/
  | fatal {u : State} (info : FatalInfo) (hi : i.RaisesFatal)
    (hu : OnlyData i.regsWritten s u) : Effect i s { u with run := .fatal info }
  /-- The host ends the run inside the step (R262). -/
  | aborts {u : State} (ha : s.hostAbort = some .duringRead)
    (hu : OnlyData i.regsWritten s u) : Effect i s (s.abortInStep u)

/-- A load of `dr` after reads that kept the registers (R181 to R183). -/
theorem Effect.loadFrom {i : Instr} {s u : State} {dr : Reg} (hc : i.condFrom = some dr)
    (hr : dr ∈ i.regsWritten) (hu : OnlyData i.regsWritten s u) (ea : Word) :
    Effect i s (u.loadFrom dr ea) :=
  .result _ hc hr (hu.touch ea)

/-- A blocking read either ends in the host's abort or goes on with a character, in a state that
differs from the one it began in by the input alone. -/
theorem Effect.of_readCharThen {i : Instr} {s now t : State} {k : Word → State → Result}
    (h : s.readCharThen now k = .next t) (hnow : OnlyData i.regsWritten s now)
    (hk : ∀ c u, OnlyData i.regsWritten s u → k c u = .next t → Effect i s t) : Effect i s t := by
  obtain ⟨ha, e⟩ | ⟨-, ⟨c, io, hc, e⟩ | ⟨-, v, -, e⟩ | ⟨-, -, e⟩⟩ :=
    s.readCharThen_cases now k <;> rw [e] at h
  · cases h
    exact .aborts (hnow.hostAbort ▸ ha) hnow
  · exact hk _ _ (hnow.takeByte hc) h
  · exact hk v now hnow h
  · cases h

/-- The string routine of PUTS and PUTSP appends to the trace. -/
theorem Effect.of_writeString {i : Instr} {s u t : State} {f : Word → List Byte}
    (h : u.writeString f = .next t) (hc : i.condFrom = none)
    (hu : OnlyData i.regsWritten s u) : Effect i s t := by
  obtain ⟨bs, -, e⟩ | ⟨-, e⟩ := u.writeString_cases f <;> rw [e] at h <;> cases h
  exact .keeps hc (hu.writeChars bs)

/-- Every next state of every instruction is one of the six kinds. -/
theorem exec_effect {i : Instr} {s t : State} (h : exec i s = .next t) : Effect i s t := by
  have hs : OnlyData i.regsWritten s s := .refl _ s
  cases i with
  | addReg | addImm | andReg | andImm | not | lea =>
    cases h
    exact .result _ rfl (.head _) hs
  | ld | ldr =>
    cases h
    exact .loadFrom rfl (.head _) hs _
  | ldi =>
    cases h
    exact .loadFrom rfl (.head _) (hs.touch _) _
  | st | str =>
    cases h
    exact .keeps rfl (hs.memWrite _ _)
  | sti =>
    cases h
    exact .keeps rfl ((hs.touch _).memWrite _ _)
  | br nzp off9 =>
    cases h
    split
    · exact .jumps _ (.br nzp off9) hs
    · exact .keeps rfl hs
  | jmp ignHi baseR ignLo =>
    cases h
    exact .jumps _ (.jmp ignHi baseR ignLo) hs
  | jsr off11 =>
    cases h
    exact .jumps _ (.jsr off11) (hs.setReg (.head _) _)
  | jsrr ignHi baseR ignLo =>
    cases h
    exact .jumps _ (.jsrr ignHi baseR ignLo) (hs.setReg (.head _) _)
  | trapGetc =>
    rw [exec, execTrapGetc] at h
    refine .of_readCharThen h (.enterTrap s (.head _)) fun c u hu hk => ?_
    cases hk
    exact .result c rfl (.tail _ (.head _)) hu
  | trapIn =>
    rw [exec, execTrapIn] at h
    refine .of_readCharThen h ((OnlyData.enterTrap s (.head _)).writeChars _) fun c u hu hk => ?_
    cases hk
    exact .result c rfl (.tail _ (.head _)) (hu.writeChars _)
  | trapOut =>
    cases h
    exact .keeps rfl ((OnlyData.enterTrap s (.head _)).writeChars _)
  | trapPuts | trapPutsp => exact .of_writeString h rfl (.enterTrap s (.head _))
  | trapHalt ign =>
    cases h
    exact .halts ign rfl ((OnlyData.enterTrap s (.head _)).writeChars _)
  | trapInvalid ign vector =>
    cases h
    exact .fatal _ (.trapInvalid ign vector) (.enterTrap s (.head _))
  | rti ign =>
    cases h
    exact .fatal _ (.rti ign) hs
  | res ign =>
    cases h
    exact .fatal _ (.res ign) hs

/-- An instruction completes, or blocks in a read, or is in a string without an end; none is
refused. -/
theorem exec_completes_or_hangs (i : Instr) (s : State) :
    (∃ t, exec i s = .next t) ∨ (∃ io, exec i s = .fault (.readNeverCompletes io)) ∨
      ∃ io period, exec i s = .fault (.stringNeverEnds io period) := by
  cases i with
  | trapGetc | trapIn =>
    simp only [exec, execTrapGetc, execTrapIn]
    obtain ⟨-, e⟩ | ⟨-, ⟨c, io, -, e⟩ | ⟨-, v, -, e⟩ | ⟨-, -, e⟩⟩ :=
      State.readCharThen_cases s _ _ <;> rw [e]
    · exact .inl ⟨_, rfl⟩
    · exact .inl ⟨_, rfl⟩
    · exact .inl ⟨_, rfl⟩
    · exact .inr (.inl ⟨_, rfl⟩)
  | trapPuts | trapPutsp =>
    simp only [exec, execTrapPuts, execTrapPutsp]
    obtain ⟨bs, -, e⟩ | ⟨-, e⟩ := State.writeString_cases s.enterTrap _ <;> rw [e]
    · exact .inl ⟨_, rfl⟩
    · exact .inr (.inr ⟨_, _, rfl⟩)
  | addReg | addImm | andReg | andImm | not | br | jmp | jsr | jsrr | ld | ldi | ldr | lea | st
  | sti | str | trapOut | trapHalt | trapInvalid | rti | res => exact .inl ⟨_, rfl⟩

end Sys2Proof.Machine
end

section
/-! The flags and the registers (spec/10_state.md R31, R38 to R40, R45, R48). -/

namespace Sys2Proof.Machine

theorem condLegal_of_cond_eq_condOf {s : State} {v : Word} (h : s.cond = condOf v) :
    s.CondLegal := by
  rw [State.CondLegal, h]
  obtain e | e | e := condOf_cases v
  · exact .inl e
  · exact .inr (.inl e)
  · exact .inr (.inr e)

/-- Settles O6: `condOf` is R38's pseudocode, and `setcc` writes COND alone. -/
theorem setccSelectsOneFlag : Obligations.SetccSelectsOneFlag := fun _ _ =>
  ⟨rfl, rfl, rfl, rfl, rfl, rfl, rfl, rfl⟩

/-- Settles O7: `setcc` overwrites COND, so a second one of the same value changes nothing. -/
theorem registerFileOperations : Obligations.RegisterFileOperations := fun s r q v =>
  ⟨s.reg_setReg r q v, s.pc_setReg r v, s.cond_setReg r v, rfl,
    condLegal_of_cond_eq_condOf (s.cond_setcc (s.reg r))⟩

/-- Settles O8: of the kinds of effect that do not end the run FATAL or ABORTED, only a result
writes COND. -/
theorem condWrittenOnlyByListedInstructions : Obligations.CondWrittenOnlyByListedInstructions := by
  intro i s t h hab hfat
  cases exec_effect h with
  | keeps hc ht => simp [hc, ht.cond]
  | @result u dr v hc =>
    simp only [hc, Option.some.injEq, reduceCtorEq, false_implies, and_true]
    rintro r rfl
    rw [State.cond_writeResult, State.reg_writeResult_self]
  | jumps target hi hu => simp [hi.condFrom_eq_none, hu.cond]
  | halts ign hi hu => simp [hi, Instr.condFrom, hu.cond]
  | fatal info => exact absurd ⟨info, rfl⟩ hfat
  | aborts => exact absurd rfl hab

/-- Settles O49: every write of an effect is to a register of the instruction's list. -/
theorem onlyListedRegistersWritten : Obligations.OnlyListedRegistersWritten := by
  intro i s t h hfat
  cases exec_effect h with
  | keeps hc ht => exact ht.regs
  | result v hc hr hu => exact (hu.setReg hr v).regs
  | jumps target hi hu => exact hu.regs
  | halts ign hi hu => exact hu.regs
  | fatal info => exact absurd ⟨info, rfl⟩ hfat
  | aborts => exact fun _ _ => rfl

/-- An instruction keeps COND legal unless it ends the run FATAL. -/
theorem exec_keeps_condLegal {i : Instr} {s t : State} (h : exec i s = .next t)
    (hfat : ¬ t.Fatal) (hs : s.CondLegal) : t.CondLegal := by
  have of_eq {u : State} (e : u.cond = s.cond) : u.CondLegal := by rwa [State.CondLegal, e]
  cases exec_effect h with
  | keeps hc ht => exact of_eq ht.cond
  | @result u dr v => exact condLegal_of_cond_eq_condOf (u.cond_writeResult dr v)
  | jumps target hi hu => exact of_eq hu.cond
  | halts ign hi hu => exact of_eq hu.cond
  | fatal info => exact absurd ⟨info, rfl⟩ hfat
  | aborts => exact of_eq rfl

theorem condLegal_boot (b : Config.Boot) (p : Config.Params) : (State.boot b p).CondLegal :=
  .inr (.inl rfl)

/-- Settles O10: neither the abort at a boundary nor the fetch writes COND, and the instruction
keeps it legal. -/
theorem condStaysOneHot : Obligations.CondStaysOneHot := by
  refine ⟨condLegal_boot, fun s t hs h hfat => ?_⟩
  obtain ⟨-, ⟨-, rfl⟩ | ⟨-, he⟩⟩ := step_next h
  · exact hs
  · refine exec_keeps_condLegal he hfat ?_
    simpa [State.CondLegal] using hs

/-! ## Only BR reads COND -/

/-- COND goes unread from `s`: the answer `o'` with COND at `c` is the answer `o`, or the same next
state with COND passed through. -/
def CondUnread (s : State) (c : Word) (o o' : Result) : Prop :=
  o' = o ∨ ∃ t, o = .next t ∧ t.cond = s.cond ∧ o' = .next { t with cond := c }

/-- The adapter's read neither reads nor writes COND. -/
theorem touch_withCond (s : State) (c a : Word) :
    State.touch { s with cond := c } a = { s.touch a with cond := c } := by
  by_cases h : a = kbsr
  · simp only [h, State.touch_kbsr, State.pollKeyboard]
    split <;> rfl
  · simp only [State.touch_ne _ h]

theorem indirect_withCond (s : State) (c : Word) (off9 : BitVec 9) :
    State.indirect { s with cond := c } off9 =
      ((s.indirect off9).1, { (s.indirect off9).2 with cond := c }) :=
  congrArg (fun t => (t.mem.read (s.pcRelative off9), t)) (touch_withCond s c _)

/-- A load writes COND from the word it reads, whatever COND was. -/
theorem loadFrom_withCond (s : State) (c : Word) (dr : Reg) (ea : Word) :
    State.loadFrom { s with cond := c } dr ea = s.loadFrom dr ea := by
  simp only [State.loadFrom, State.memRead_fst, State.memRead_snd, touch_withCond]
  rfl

/-- A blocking read passes COND through when the host aborts it, and else leaves it to a routine
that overwrites it. -/
theorem condUnread_readCharThen (s now : State) (c : Word) {k : Word → State → Result}
    (hk : ∀ v u, k v { u with cond := c } = k v u) :
    CondUnread s c (s.readCharThen now k)
      (State.readCharThen { s with cond := c } { now with cond := c } k) := by
  obtain ⟨ha, e⟩ | ⟨ha, ⟨v, io, hv, e⟩ | ⟨hv, v, hp, e⟩ | ⟨hv, hp, e⟩⟩ :=
    s.readCharThen_cases now k
  · exact .inr ⟨_, e, rfl, if_pos ha⟩
  · exact .inl (by rw [e, ← hk]; simp [State.readCharThen, ha, hv])
  · exact .inl (by simp [State.readCharThen, ha, hv, hp, hk])
  · exact .inl (by simp [State.readCharThen, ha, hv, hp])

/-- The string routine passes COND through. -/
theorem condUnread_writeString (s : State) (c : Word) (f : Word → List Byte) :
    CondUnread s c (s.writeString f) (State.writeString { s with cond := c } f) := by
  obtain ⟨bs, hb, e⟩ | ⟨hz, e⟩ := s.writeString_cases f
  · refine .inr ⟨_, e, rfl, ?_⟩
    have hb' : stringBytes f s.mem 65536 (State.reg { s with cond := c } 0) = some bs := hb
    simp only [State.writeString, hb']
    rfl
  · exact .inl ((State.writeString_endless (s := { s with cond := c }) hz f).trans e.symm)

/-- No instruction but BR reads COND. -/
theorem exec_condUnread {i : Instr} (s : State) (c : Word) (hbr : ∀ nzp off9, i ≠ .br nzp off9) :
    CondUnread s c (exec i s) (exec i { s with cond := c }) := by
  cases i with
  | br nzp off9 => exact absurd rfl (hbr nzp off9)
  | addReg | addImm | andReg | andImm | not | lea => exact .inl rfl
  | ld | ldr =>
    refine .inl ?_
    simp only [exec, execLd, execLdr, loadFrom_withCond]
    rfl
  | ldi =>
    refine .inl ?_
    simp only [exec, execLdi, indirect_withCond, loadFrom_withCond]
  | sti =>
    simp only [exec, execSti, indirect_withCond]
    exact .inr ⟨_, rfl, State.cond_touch s _, rfl⟩
  | trapGetc =>
    simp only [exec, execTrapGetc]
    exact condUnread_readCharThen s s.enterTrap c fun _ _ => rfl
  | trapIn =>
    simp only [exec, execTrapIn]
    exact condUnread_readCharThen s (s.enterTrap.writeChars s.params.inPrompt) c fun _ _ => rfl
  | trapPuts | trapPutsp => exact condUnread_writeString s.enterTrap c _
  | jmp | jsr | jsrr | st | str | trapOut | trapHalt | trapInvalid | rti | res =>
    exact .inr ⟨_, rfl, rfl, rfl⟩

/-- Settles O9: an answer that does not depend on COND is no refusal, and two next states that
differ in COND at most have the run state and the terminal in common. -/
theorem onlyBranchReadsCond : Obligations.OnlyBranchReadsCond := by
  intro i s c hbr
  obtain e | ⟨t, e, hc, e'⟩ := exec_condUnread s c hbr
  · rw [e]
    obtain ⟨t, h⟩ | ⟨io, h⟩ | ⟨io, period, h⟩ := exec_completes_or_hangs i s <;> rw [h]
    exact ⟨rfl, rfl, fun _ => ⟨rfl, .inl rfl⟩⟩
  · rw [e, e']
    exact ⟨rfl, rfl, fun _ => ⟨rfl, .inr ⟨hc, rfl⟩⟩⟩

end Sys2Proof.Machine
end

section
/-! The run state, PC and the invariant along a step (spec/10_state.md R35, R42, R48;
spec/70_reset_and_hazards.md R280, R289). -/

namespace Sys2Proof.Machine

/-- How an instruction leaves the run state (R42). -/
theorem exec_run {i : Instr} {s t : State} (h : exec i s = .next t) :
    t.run = s.run ∨ (t.run = .halted ∧ ∃ ign, i = .trapHalt ign) ∨
      (∃ info, t.run = .fatal info ∧ i.RaisesFatal) ∨
      (t.run = .aborted ∧ s.hostAbort = some .duringRead) := by
  cases exec_effect h with
  | keeps hc ht => exact .inl ht.run
  | result v hc hr hu => exact .inl hu.run
  | jumps target hi hu => exact .inl hu.run
  | halts ign hi => exact .inr (.inl ⟨rfl, ign, hi⟩)
  | fatal info hi => exact .inr (.inr (.inl ⟨info, rfl, hi⟩))
  | aborts ha => exact .inr (.inr (.inr ⟨rfl, ha⟩))

/-- How a step leaves RUNNING, by the instruction at PC (R42, R124, R262). -/
theorem step_run {s t : State} (h : step s = .next t) :
    t.run = .running ∨ (t.run = .halted ∧ ∃ ign, decode s.fetch.1 = .trapHalt ign) ∨
      (∃ info, t.run = .fatal info ∧ (decode s.fetch.1).RaisesFatal) ∨
      (t.run = .aborted ∧ s.hostAbort ≠ none) := by
  obtain ⟨hrun, ⟨ha, rfl⟩ | ⟨-, he⟩⟩ := step_next h
  · exact .inr (.inr (.inr ⟨rfl, by simp [ha]⟩))
  · obtain hr | hh | hf | ⟨hr, ha⟩ := exec_run he
    · exact .inl (hr.trans ((s.run_touch s.pc).trans hrun))
    · exact .inr (.inl hh)
    · exact .inr (.inr (.inl hf))
    · have ha : s.hostAbort = some .duringRead := (s.hostAbort_touch s.pc).symm.trans ha
      exact .inr (.inr (.inr ⟨hr, by simp [ha]⟩))

/-- A running machine steps, or its instruction hangs. -/
theorem step_completes_or_hangs {s : State} (h : s.run = .running) :
    (∃ t, step s = .next t) ∨ (∃ io, step s = .fault (.readNeverCompletes io)) ∨
      ∃ io period, step s = .fault (.stringNeverEnds io period) := by
  simp only [step, h]
  split
  · exact .inl ⟨_, rfl⟩
  · exact exec_completes_or_hangs _ _

/-- Settles O47: each kind of effect names the run state it ends in, and a running machine that does
not step is in an instruction that hangs. -/
theorem runLeavesRunningOnlyAsListed : Obligations.RunLeavesRunningOnlyAsListed := by
  refine ⟨fun _ _ => rfl, fun s t h => ⟨(step_next h).1, ?_⟩, fun s => ⟨?_, ?_, ?_, ?_⟩⟩
  · obtain hr | hh | ⟨info, hf, hi⟩ | ha := step_run h
    · exact .inl hr
    · exact .inr (.inl hh)
    · exact .inr (.inr (.inl ⟨info, hf, hi.cases⟩))
    · exact .inr (.inr (.inr ha))
  · intro h; simp only [step, h]
  · intro info h; simp only [step, h]
  · intro h; simp only [step, h]
  · exact step_completes_or_hangs

/-- Settles O50: the fetch moves PC past the word, and of the effects that do not end the run FATAL
or ABORTED only the one of an instruction that writes PC moves it again. -/
theorem pcWrittenOnlyByControlTransfer : Obligations.PcWrittenOnlyByControlTransfer := by
  intro s t h hab hfat hbr hjmp hjsr hjsrr
  obtain ⟨-, ⟨-, rfl⟩ | ⟨-, he⟩⟩ := step_next h
  · exact absurd rfl hab
  cases exec_effect he with
  | keeps hc ht => exact ht.pc
  | result v hc hr hu => exact hu.pc
  | jumps target hi =>
    generalize decode s.fetch.1 = i at hi hbr hjmp hjsr hjsrr
    cases hi with
    | br nzp off9 => exact absurd rfl (hbr nzp off9)
    | jmp hi r lo => exact absurd rfl (hjmp hi r lo)
    | jsr off11 => exact absurd rfl (hjsr off11)
    | jsrr hi r lo => exact absurd rfl (hjsrr hi r lo)
  | halts ign hi hu => exact hu.pc
  | fatal info => exact absurd ⟨info, rfl⟩ hfat
  | aborts => exact absurd rfl hab

/-! ## The invariant -/

theorem exec_keeps_wf {i : Instr} {s t : State} (h : exec i s = .next t)
    (hw : s.mem.wf = true) : t.mem.wf = true := by
  cases exec_effect h with
  | keeps hc ht => exact ht.mem_wf hw
  | result v hc hr hu => exact hu.mem_wf hw
  | jumps target hi hu => exact hu.mem_wf hw
  | halts ign hi hu => exact hu.mem_wf hw
  | fatal info hi hu => exact hu.mem_wf hw
  | aborts => exact hw

/-- The flushed part stays inside the trace, which only grows, and HALT flushes all of it (R73,
R217). -/
theorem exec_keeps_flushed_le {i : Instr} {s t : State} (h : exec i s = .next t)
    (hs : s.io.flushed ≤ s.io.output.length) : t.io.flushed ≤ t.io.output.length := by
  cases exec_effect h with
  | keeps hc ht => exact ht.flushed_le hs
  | result v hc hr hu => exact hu.flushed_le hs
  | jumps target hi hu => exact hu.flushed_le hs
  | halts => exact le_rfl
  | fatal info hi hu => exact hu.flushed_le hs
  | aborts ha hu => exact hu.flushed_le hs

/-- A running machine that an instruction leaves HALTED has flushed its whole trace (R217). -/
theorem exec_halted_flushed {i : Instr} {s t : State} (h : exec i s = .next t)
    (hs : s.run = .running) (ht : t.run = .halted) : t.io.flushed = t.io.output.length := by
  have hne : s.run ≠ .halted := by simp [hs]
  cases exec_effect h with
  | keeps hc hu => exact absurd (hu.run.symm.trans ht) hne
  | result v hc hr hu => exact absurd (hu.run.symm.trans ht) hne
  | jumps target hi hu => exact absurd (hu.run.symm.trans ht) hne
  | halts => rfl
  | fatal => cases ht
  | aborts => cases ht

/-- An instruction that a running machine executes keeps the invariant. -/
theorem exec_keeps_inv {i : Instr} {s t : State} (h : exec i s = .next t)
    (hrun : s.run = .running) (hs : s.Inv) : t.Inv where
  cond_legal hfat := exec_keeps_condLegal h hfat (hs.of_running hrun).1
  mem_wf _ := exec_keeps_wf h (hs.of_running hrun).2
  flushed_le := exec_keeps_flushed_le h hs.flushed_le
  halted_flushed := exec_halted_flushed h hrun

/-- The fetch of a running machine keeps the invariant. -/
theorem fetch_keeps_inv {s : State} (hrun : s.run = .running) (hs : s.Inv) : s.fetch.2.Inv := by
  obtain ⟨hcond, hw⟩ := hs.of_running hrun
  refine ⟨fun _ => ?_, fun _ => State.wf_touch hw s.pc, ?_, ?_⟩
  · simpa [State.CondLegal] using hcond
  · simpa using hs.flushed_le
  · simp [hrun]

/-- Settles O57: a step is the host's abort, which writes the run state alone, or the fetch and an
instruction, and both keep the invariant. -/
theorem stepKeepsInvariant : Obligations.StepKeepsInvariant := by
  intro s t hs h
  obtain ⟨hrun, ⟨-, rfl⟩ | ⟨-, he⟩⟩ := step_next h
  · obtain ⟨hcond, hw⟩ := hs.of_running hrun
    exact ⟨fun _ => hcond, fun _ => hw, hs.flushed_le, fun hh => by cases hh⟩
  · exact exec_keeps_inv he ((s.run_touch s.pc).trans hrun) (fetch_keeps_inv hrun hs)

theorem boot_inv {b : Config.Boot} (hw : Memory.wf b.memInit = true) (p : Config.Params) :
    (State.boot b p).Inv :=
  ⟨fun _ => condLegal_boot b p, fun _ => hw, Nat.zero_le _, fun h => by cases h⟩

/-- Settles O58: the defaults' memory is the empty list, which is canonical. -/
theorem resetSatisfiesInvariant : Obligations.ResetSatisfiesInvariant :=
  ⟨fun _ p hw => boot_inv hw p, boot_inv State.reset_mem_wf defaultParams⟩

end Sys2Proof.Machine
end

section
/-! The memory array, the adapter's read and the terminal's input (spec/20_memory.md R60 to R72,
R76, R79, R82). -/

namespace Sys2Proof.Machine

/-! ## The canonical form -/

/-- A canonical list names no address below the one it starts from. -/
theorem Memory.le_of_lookup_ne {m : Memory} {lo a : Nat} (hw : m.wfFrom lo = true)
    (ha : m.lookup a ≠ unlistedWord) : lo ≤ a := by
  induction m generalizing lo with
  | nil => exact absurd rfl ha
  | cons c rest ih =>
    obtain ⟨k, v⟩ := c
    obtain ⟨hlo, -, -, hrest⟩ := (Memory.wfFrom_cons ..).1 hw
    by_cases hk : a = k
    · omega
    · rw [Memory.lookup, if_neg hk] at ha
      have := ih hrest ha
      omega

/-- The tail of a canonical list is what the list gives beyond its first address. -/
theorem Memory.lookup_tail {rest : Memory} {k a : Nat} (v : Word)
    (hw : Memory.wfFrom (k + 1) rest = true) :
    rest.lookup a = if a = k then unlistedWord else Memory.lookup ((k, v) :: rest) a := by
  by_cases hk : a = k
  · rw [if_pos hk]
    by_contra hne
    have := Memory.le_of_lookup_ne hw hne
    omega
  · simp [Memory.lookup, hk]

theorem Memory.lookup_head_ne {k : Nat} {v : Word} (hv : v ≠ unlistedWord) (rest : Memory) :
    Memory.lookup ((k, v) :: rest) k ≠ unlistedWord := by
  simpa [Memory.lookup] using hv

/-- The first entries of two canonical lists that read alike are at the same address: each list
names the other's first address, so neither begins after the other. -/
theorem Memory.eq_of_lookup_eq {m m' : Memory} {lo lo' : Nat} (hw : m.wfFrom lo = true)
    (hw' : m'.wfFrom lo' = true) (h : ∀ a < 65536, m.lookup a = m'.lookup a) : m = m' := by
  induction m generalizing m' lo lo' with
  | nil =>
    cases m' with
    | nil => rfl
    | cons c' rest' =>
      obtain ⟨k', v'⟩ := c'
      obtain ⟨-, hk', hv', -⟩ := (Memory.wfFrom_cons ..).1 hw'
      exact absurd (h k' hk').symm (Memory.lookup_head_ne hv' rest')
  | cons c rest ih =>
    obtain ⟨k, v⟩ := c
    obtain ⟨-, hk, hv, hrest⟩ := (Memory.wfFrom_cons ..).1 hw
    cases m' with
    | nil => exact absurd (h k hk) (Memory.lookup_head_ne hv rest)
    | cons c' rest' =>
      obtain ⟨k', v'⟩ := c'
      obtain ⟨-, hk', hv', hrest'⟩ := (Memory.wfFrom_cons ..).1 hw'
      have hle : k' ≤ k := Memory.le_of_lookup_ne (m := (k', v') :: rest')
        ((Memory.wfFrom_cons ..).2 ⟨le_rfl, hk', hv', hrest'⟩)
        (h k hk ▸ Memory.lookup_head_ne hv rest)
      have hle' : k ≤ k' := Memory.le_of_lookup_ne (m := (k, v) :: rest)
        ((Memory.wfFrom_cons ..).2 ⟨le_rfl, hk, hv, hrest⟩)
        (h k' hk' ▸ Memory.lookup_head_ne hv' rest')
      obtain rfl : k = k' := Nat.le_antisymm hle' hle
      obtain rfl : v = v' := by simpa [Memory.lookup] using h k hk
      rw [ih hrest hrest' fun a ha => by
        rw [Memory.lookup_tail v hrest, Memory.lookup_tail v hrest', h a ha]]

/-- Settles O42: every address below 65,536 is a word, and a canonical list names no other. -/
theorem equalMemoriesAreEqualData : Obligations.EqualMemoriesAreEqualData := by
  intro m m' hw hw' h
  refine Memory.eq_of_lookup_eq hw hw' fun a ha => ?_
  have hread := h (BitVec.ofNat 16 a)
  rwa [Memory.read, Memory.read, BitVec.toNat_ofNat, Nat.mod_eq_of_lt ha] at hread

/-! ## The terminal's input -/

theorem Io.hasByte_eq_false_iff (io : Io) :
    io.hasByte = false ↔ io.inq = [] ∧ io.tail = .ends := by
  unfold Io.hasByte
  rcases io.inq with _ | ⟨b, bs⟩ <;> cases io.tail <;> simp

/-- No byte can be taken exactly where the list is empty and the input has ended (R72). -/
theorem Io.takeByte_eq_none_iff (io : Io) :
    io.takeByte = none ↔ io.inq = [] ∧ io.tail = .ends := by
  rw [← io.hasByte_eq_false_iff, ← io.takeByte_isSome, Option.isSome_eq_false_iff,
    Option.isNone_iff_eq_none]

/-- After a poll that answered true, `ReadChar()` has a byte (R71). -/
theorem Io.takeByte_of_poll {io : Io} (h : io.poll.1 = true) :
    ∃ c io', io.poll.2.takeByte = some (c, io') := by
  have hsome : io.poll.2.takeByte.isSome = true := by
    rw [Io.takeByte_isSome, Io.hasByte_poll, Io.hasByte_of_poll h]
  obtain ⟨⟨c, io'⟩, hc⟩ := Option.isSome_iff_exists.1 hsome
  exact ⟨c, io', hc⟩

theorem Io.poll_listed {io : Io} {b : Bool} {bs : List Bool} (h : io.polls = b :: bs) :
    io.poll = (b && io.hasByte, { io with polls := bs }) := by
  simp [Io.poll, Io.draw, h]

theorem Io.poll_free {io : Io} (h : io.polls = []) :
    io.poll = (Config.pollDraw io.draws && io.hasByte, { io with draws := io.draws + 1 }) := by
  simp [Io.poll, Io.draw, h]

theorem Io.takeByte_listed {io : Io} {c : Byte} {cs : List Byte} (h : io.inq = c :: cs) :
    io.takeByte = some (c, { io with inq := cs }) := by
  simp [Io.takeByte, h]

/-- Settles O41: a byte is there exactly where one can be taken, and a poll takes none. -/
theorem terminalPollAndRead : Obligations.TerminalPollAndRead :=
  ⟨fun _ => Io.takeByte_of_poll, fun _ _ _ => Io.poll_listed, fun _ => Io.poll_free,
    fun _ _ _ => Io.takeByte_listed, Io.hasByte_eq_false_iff, Io.takeByte_eq_none_iff⟩

/-! ## What a read and a write keep of memory -/

theorem MemoryKept.of_mem_eq {s t : State} (h : t.mem = s.mem) (stored : List Word) :
    MemoryKept stored s t := fun a _ => by rw [h]

theorem MemoryKept.trans {stored : List Word} {s t u : State} (h : MemoryKept stored s t)
    (h' : MemoryKept stored t u) : MemoryKept stored s u := fun a ha => (h' a ha).trans (h a ha)

/-- A poll with input pending (R64, R65). -/
theorem State.pollKeyboard_pending {s : State} (h : s.io.poll.1 = true) :
    ∃ c io, s.io.poll.2.takeByte = some (c, io) ∧ s.pollKeyboard.io = io ∧
      s.pollKeyboard.mem.read kbsr = kbsrReady ∧ s.pollKeyboard.mem.read kbdr = zext8 c ∧
      MemoryKept [kbsr, kbdr] s s.pollKeyboard := by
  have hne : kbsr ≠ kbdr := by decide
  obtain ⟨c, io, -, hc, e⟩ | ⟨hf, -⟩ := s.pollKeyboard_cases
  · refine ⟨c, io, hc, by rw [e], ?_, ?_, fun a ha => ?_⟩
    · rw [e, Memory.read_write_ne _ _ hne, Memory.read_write_self]
    · rw [e, Memory.read_write_self]
    · obtain ⟨hsr, hdr⟩ : a ≠ kbsr ∧ a ≠ kbdr := by simpa using ha
      exact s.read_pollKeyboard hsr hdr
  · rw [h] at hf
    cases hf

/-- A poll without input pending (R64, R65). -/
theorem State.pollKeyboard_idle {s : State} (h : s.io.poll.1 = false) :
    s.pollKeyboard.io = s.io.poll.2 ∧ s.pollKeyboard.mem.read kbsr = kbsrIdle ∧
      MemoryKept [kbsr] s s.pollKeyboard := by
  obtain ⟨c, io, hp, -⟩ | ⟨-, e⟩ := s.pollKeyboard_cases
  · rw [h] at hp
    cases hp
  · refine ⟨by rw [e], by rw [e, Memory.read_write_self], fun a ha => ?_⟩
    rw [e, Memory.read_write_ne _ _ (by simpa using ha)]

/-- Settles O40: the two outcomes of the poll, and what it leaves alone in both. -/
theorem kbsrReadPollsKeyboard : Obligations.KbsrReadPollsKeyboard := by
  rintro s v t ⟨⟩
  rw [show (0xFE00 : Word) = kbsr from rfl]
  refine ⟨fun r _ => s.reg_touch kbsr r, s.pc_touch kbsr, s.cond_touch kbsr, s.run_touch kbsr,
    s.hostAbort_touch kbsr, s.params_touch kbsr, rfl, ?_, ?_⟩ <;> rw [s.touch_kbsr]
  · exact State.pollKeyboard_pending
  · exact State.pollKeyboard_idle

/-- Any read changes at most the keyboard's two cells (R66, R76). -/
theorem memoryKept_touch (s : State) (a : Word) : MemoryKept [kbsr, kbdr] s (s.touch a) := by
  by_cases h : a = kbsr
  · intro b hb
    obtain ⟨hsr, hdr⟩ : b ≠ kbsr ∧ b ≠ kbdr := by simpa using hb
    rw [h, State.touch_kbsr, s.read_pollKeyboard hsr hdr]
  · exact .of_mem_eq (by rw [s.touch_ne h]) _

/-- Away from KBSR a read is a lookup (R66). -/
theorem State.memRead_ne (s : State) {a : Word} (h : a ≠ kbsr) :
    s.memRead a = (s.mem.read a, s) := by
  rw [State.memRead, s.touch_ne h]

/-- A write is a plain store, at KBSR and KBDR too (R67, R76). -/
theorem storedAt_memWrite (s : State) (a v : Word) : StoredAt a v s (s.memWrite a v) where
  stored := Memory.read_write_self s.mem a v
  memory _ hb := Memory.read_write_ne s.mem v (by simpa using hb)
  regs _ _ := rfl
  pc := rfl
  cond := rfl
  outside := ⟨rfl, rfl, rfl, rfl⟩

/-- The reset state with a key pressed: the first poll finds it, the second finds nothing. -/
def keyPressed : State :=
  { State.reset with io := { State.reset.io with inq := [0x41], polls := [true, false] } }

/-- Settles O39: two reads of 0xFE00 after a key press show its side effect. -/
theorem onlyKbsrReadHasSideEffect : Obligations.OnlyKbsrReadHasSideEffect :=
  ⟨fun s _ h => s.memRead_ne h, ⟨keyPressed, by decide⟩, storedAt_memWrite⟩

/-- Settles O43: the fetch is a read at PC, and a read away from KBSR gives the stored word. -/
theorem storeIsSeenByNextFetch : Obligations.StoreIsSeenByNextFetch := by
  intro s a v h
  have hread : ((s.memWrite a v).memRead a).1 = v := by
    rw [State.memRead_ne _ h]
    exact Memory.read_write_self s.mem a v
  refine ⟨hread, fun b u hb => ?_, ?_⟩
  · rw [State.memRead_ne _ h]
    exact (Memory.read_write_ne _ u hb.symm).trans (Memory.read_write_self s.mem a v)
  · rintro rfl
    exact hread

end Sys2Proof.Machine
end

section
/-! Memory along a step: only ST, STI and STR store (spec/20_memory.md R67, R76;
spec/43_trap.md R220). -/

namespace Sys2Proof

/-- The instructions that store to memory (R185 to R187). -/
inductive Instr.Stores : Instr → Prop
  | st (sr : Reg) (off9 : BitVec 9) : Stores (.st sr off9)
  | sti (sr : Reg) (off9 : BitVec 9) : Stores (.sti sr off9)
  | str (sr baseR : Reg) (off6 : BitVec 6) : Stores (.str sr baseR off6)

end Sys2Proof

namespace Sys2Proof.Machine

/-- A blocking read keeps memory when its routine does, for whatever character and input it goes on
with. -/
theorem mem_of_readCharThen {entry now t : State} {k : Word → State → Result}
    (h : entry.readCharThen now k = .next t)
    (hk : ∀ c io, k c { now with io := io } = .next t → t.mem = entry.mem) :
    t.mem = entry.mem := by
  obtain ⟨-, e⟩ | ⟨-, ⟨c, io, -, e⟩ | ⟨-, v, -, e⟩ | ⟨-, -, e⟩⟩ :=
    entry.readCharThen_cases now k <;> rw [e] at h
  · cases h
    exact State.mem_abortInStep entry now
  · exact hk _ _ h
  · exact hk v now.io h
  · cases h

theorem mem_of_writeString {s t : State} {f : Word → List Byte}
    (h : s.writeString f = .next t) : t.mem = s.mem := by
  obtain ⟨bs, -, e⟩ | ⟨-, e⟩ := s.writeString_cases f <;> rw [e] at h <;> cases h
  exact State.mem_writeChars s bs

/-- An instruction that does not store changes memory only by polling the keyboard. -/
theorem exec_keeps_memory {i : Instr} {s t : State} (h : exec i s = .next t) (hi : ¬ i.Stores) :
    MemoryKept [kbsr, kbdr] s t := by
  cases i with
  | st sr off9 => exact absurd (.st sr off9) hi
  | sti sr off9 => exact absurd (.sti sr off9) hi
  | str sr baseR off6 => exact absurd (.str sr baseR off6) hi
  | ld | ldr =>
    cases h
    exact memoryKept_touch s _
  | ldi =>
    cases h
    exact (memoryKept_touch s _).trans (memoryKept_touch _ _)
  | br =>
    cases h
    exact .of_mem_eq (by split <;> rfl) _
  | trapGetc | trapIn =>
    simp only [exec, execTrapGetc, execTrapIn] at h
    refine .of_mem_eq (mem_of_readCharThen h fun c io hk => ?_) _
    cases hk
    rfl
  | trapPuts | trapPutsp => exact .of_mem_eq (mem_of_writeString h) _
  | addReg | addImm | andReg | andImm | not | jmp | jsr | jsrr | lea | trapOut | trapHalt
  | trapInvalid | rti | res =>
    cases h
    exact .of_mem_eq rfl _

/-- Settles O51: the abort at a boundary writes no memory, and the fetch and an instruction that
does not store write at most the keyboard's cells. -/
theorem memoryChangedOnlyByStores : Obligations.MemoryChangedOnlyByStores := by
  intro s t h _ hst hsti hstr
  obtain ⟨-, ⟨-, rfl⟩ | ⟨-, he⟩⟩ := step_next h
  · exact .of_mem_eq s.mem_abortAtBoundary _
  · refine (memoryKept_touch s s.pc).trans (exec_keeps_memory (s := s.fetch.2) he fun hi => ?_)
    generalize decode s.fetch.1 = i at hi hst hsti hstr
    cases hi with
    | st sr off9 => exact hst sr off9 rfl
    | sti sr off9 => exact hsti sr off9 rfl
    | str sr baseR off6 => exact hstr sr baseR off6 rfl

end Sys2Proof.Machine
end

section
/-! The output trace along a step and at the end of a run (spec/20_memory.md R73;
spec/43_trap.md R219, R221; spec/70_reset_and_hazards.md R289). -/

namespace Sys2Proof.Machine

/-- An instruction only appends to the trace, and its flushed part moves only to the trace's end. -/
theorem exec_output_grows {i : Instr} {s t : State} (h : exec i s = .next t)
    (hs : s.io.flushed ≤ s.io.output.length) :
    s.io.output <+: t.io.output ∧ s.io.flushed ≤ t.io.flushed := by
  cases exec_effect h with
  | keeps hc ht => exact ⟨ht.output, ht.flushed.ge⟩
  | result v hc hr hu => exact ⟨hu.output, hu.flushed.ge⟩
  | jumps target hi hu => exact ⟨hu.output, hu.flushed.ge⟩
  | halts ign hi hu => exact ⟨hu.output, hs.trans hu.output.length_le⟩
  | fatal info hi hu => exact ⟨hu.output, hu.flushed.ge⟩
  | aborts ha hu => exact ⟨hu.output, hu.flushed.ge⟩

/-- A blocking read whose routine faults on no character faults only by never completing. -/
theorem fault_of_readCharThen {entry now : State} {k : Word → State → Result} {f : Fault}
    (h : entry.readCharThen now k = .fault f) (hk : ∀ c u, k c u ≠ .fault f) :
    f = .readNeverCompletes now.io := by
  obtain ⟨-, e⟩ | ⟨-, ⟨c, io, -, e⟩ | ⟨-, v, -, e⟩ | ⟨-, -, e⟩⟩ :=
    entry.readCharThen_cases now k <;> rw [e] at h
  · cases h
  · exact absurd h (hk _ _)
  · exact absurd h (hk _ _)
  · cases h
    rfl

theorem fault_of_writeString {s : State} {bytesOf : Word → List Byte} {f : Fault}
    (h : s.writeString bytesOf = .fault f) : ∃ period, f = .stringNeverEnds s.io period := by
  obtain ⟨bs, -, e⟩ | ⟨-, e⟩ := s.writeString_cases bytesOf <;> rw [e] at h <;> cases h
  exact ⟨_, rfl⟩

/-- What an instruction that hangs carries of the terminal: a read's wait begins after the routine's
own output, a string without an end before it. -/
theorem exec_fault {i : Instr} {s : State} {f : Fault} (h : exec i s = .fault f) :
    (∃ u, OnlyData i.regsWritten s u ∧ f = .readNeverCompletes u.io) ∨
      ∃ period, f = .stringNeverEnds s.io period := by
  cases i with
  | trapGetc =>
    rw [exec, execTrapGetc] at h
    exact .inl ⟨s.enterTrap, .enterTrap s (.head _), fault_of_readCharThen h fun _ _ => nofun⟩
  | trapIn =>
    rw [exec, execTrapIn] at h
    exact .inl ⟨s.enterTrap.writeChars s.params.inPrompt,
      (OnlyData.enterTrap s (.head _)).writeChars _, fault_of_readCharThen h fun _ _ => nofun⟩
  | trapPuts | trapPutsp => exact .inr (fault_of_writeString (s := s.enterTrap) h)
  | addReg | addImm | andReg | andImm | not | br | jmp | jsr | jsrr | ld | ldi | ldr | lea | st
  | sti | str | trapOut | trapHalt | trapInvalid | rti | res => cases h

/-- A step faults by not being taken, or in its instruction (R42). -/
theorem step_fault {s : State} {f : Fault} (h : step s = .fault f) :
    f = .runHalted ∨ f = .runFatal ∨ f = .runAborted ∨
      exec (decode s.fetch.1) s.fetch.2 = .fault f := by
  unfold step at h
  split at h
  · split at h
    · cases h
    · exact .inr (.inr (.inr h))
  · cases h
    exact .inl rfl
  · cases h
    exact .inr (.inl rfl)
  · cases h
    exact .inr (.inr (.inl rfl))

/-- The read that never completes was reached by a fetch and by output alone. -/
theorem step_blocked_output {s : State} {io : Io} (h : step s = .fault (.readNeverCompletes io)) :
    s.io.output <+: io.output ∧ io.flushed = s.io.flushed := by
  obtain ⟨⟨⟩⟩ | ⟨⟨⟩⟩ | ⟨⟨⟩⟩ | he := step_fault h
  obtain ⟨u, hu, hf⟩ | ⟨period, hf⟩ := exec_fault he <;> cases hf
  exact ⟨s.output_touch s.pc ▸ hu.output, hu.flushed.trans (s.flushed_touch s.pc)⟩

/-- The string without an end carries the terminal as the fetch left it. -/
theorem step_endless_output {s : State} {io : Io} {period : List Byte}
    (h : step s = .fault (.stringNeverEnds io period)) :
    io.output = s.io.output ∧ io.flushed = s.io.flushed := by
  obtain ⟨⟨⟩⟩ | ⟨⟨⟩⟩ | ⟨⟨⟩⟩ | he := step_fault h
  obtain ⟨u, hu, hf⟩ | ⟨p, hf⟩ := exec_fault he <;> cases hf
  exact ⟨s.output_touch s.pc, s.flushed_touch s.pc⟩

/-- Settles O52: the abort at a boundary and the fetch write no output, and an instruction only
appends to it. -/
theorem outputOnlyGrows : Obligations.OutputOnlyGrows := by
  refine fun s => ⟨fun t hs h => ?_, fun _ => step_blocked_output, fun _ _ => step_endless_output⟩
  obtain ⟨-, ⟨-, rfl⟩ | ⟨-, he⟩⟩ := step_next h
  · exact ⟨List.prefix_rfl, le_rfl⟩
  · simpa using exec_output_grows he (by simpa using hs)

/-- Settles O53: once HALTED every byte of the trace is flushed, so what is shown is as long as the
trace it begins. -/
theorem haltedOutputIsWholeTrace : Obligations.HaltedOutputIsWholeTrace := by
  intro s hs hrun shown
  have hfl := hs.halted_flushed hrun
  constructor
  · rintro ⟨hpre, hlen⟩
    exact hpre.eq_of_length_le (hfl ▸ hlen)
  · rintro rfl
    exact ⟨List.prefix_rfl, hfl.le⟩

end Sys2Proof.Machine
end

section
/-! Decoding and encoding are inverse to each other (spec/30_encoding.md R100 to R105, R116). -/

namespace Sys2Proof

/-! ## The fields of an encoded instruction -/

/-- Every instruction's word has the opcode of R104. -/
theorem opcodeField_encode : ∀ i : Instr, opcodeField (encode i) = i.opcode
  | .addReg .. => Laws.EncodesOpcode.addReg ..
  | .addImm .. => Laws.EncodesOpcode.addImm ..
  | .andReg .. => Laws.EncodesOpcode.andReg ..
  | .andImm .. => Laws.EncodesOpcode.andImm ..
  | .not .. => Laws.EncodesOpcode.not ..
  | .br .. => Laws.EncodesOpcode.br ..
  | .jmp .. => Laws.EncodesOpcode.jmp ..
  | .jsr .. => Laws.EncodesOpcode.jsr ..
  | .jsrr .. => Laws.EncodesOpcode.jsrr ..
  | .ld .. => Laws.EncodesOpcode.ld ..
  | .ldi .. => Laws.EncodesOpcode.ldi ..
  | .ldr .. => Laws.EncodesOpcode.ldr ..
  | .lea .. => Laws.EncodesOpcode.lea ..
  | .st .. => Laws.EncodesOpcode.st ..
  | .sti .. => Laws.EncodesOpcode.sti ..
  | .str .. => Laws.EncodesOpcode.str ..
  | .trapGetc .. => Laws.EncodesOpcode.trapGetc ..
  | .trapOut .. => Laws.EncodesOpcode.trapOut ..
  | .trapPuts .. => Laws.EncodesOpcode.trapPuts ..
  | .trapIn .. => Laws.EncodesOpcode.trapIn ..
  | .trapPutsp .. => Laws.EncodesOpcode.trapPutsp ..
  | .trapHalt .. => Laws.EncodesOpcode.trapHalt ..
  | .trapInvalid .. => Laws.EncodesOpcode.trapInvalid ..
  | .rti .. => Laws.EncodesOpcode.rti ..
  | .res .. => Laws.EncodesOpcode.res ..

theorem mem_recognisedVectors_iff {vector : BitVec 8} : vector ∈ recognisedVectors ↔
    vector = 0x20 ∨ vector = 0x21 ∨ vector = 0x22 ∨ vector = 0x23 ∨ vector = 0x24 ∨
      vector = 0x25 := by
  simp [recognisedVectors]

/-- A vector that names no routine is TRAP's invalid instruction (R111). -/
theorem decodeTrap_of_not_mem (ign : BitVec 4) {vector : BitVec 8}
    (h : vector ∉ recognisedVectors) : decodeTrap ign vector = .trapInvalid ign vector := by
  unfold decodeTrap
  split
  case h_7 => rfl
  all_goals exact absurd (by decide) h

theorem Instr.wf_trapInvalid_iff (ign : BitVec 4) (vector : BitVec 8) :
    (Instr.trapInvalid ign vector).wf = true ↔ vector ∉ recognisedVectors := by
  simp [Instr.wf]

/-- Every operand is read back from its place in the word. -/
theorem decode_encode {i : Instr} (h : i.wf = true) : decode (encode i) = i := by
  rw [decode, opcodeField_encode]
  cases i with
  | trapInvalid ign vector =>
    simp only [encode, Instr.opcode, BitVec.extractLsb'_append_eq_right,
      BitVec.extractLsb'_append_eq_of_le, Nat.reduceLeDiff, Nat.reduceSub]
    exact decodeTrap_of_not_mem ign ((Instr.wf_trapInvalid_iff ign vector).1 h)
  | addReg | addImm | andReg | andImm | not | br | jmp | jsr | jsrr | ld | ldi | ldr | lea | st
  | sti | str | trapGetc | trapOut | trapPuts | trapIn | trapPutsp | trapHalt | rti | res =>
    simp only [encode, Instr.opcode, regField, BitVec.getLsbD_append,
      BitVec.extractLsb'_append_eq_right, BitVec.extractLsb'_append_eq_of_le, Nat.reduceLeDiff,
      Nat.reduceSub]
    rfl

/-! ## The fields of a word put together again -/

theorem regBits_regField (w : Word) (lo : Nat) :
    regBits (regField w lo) = w.extractLsb' lo 3 := rfl

theorem extractLsb'_one (w : Word) (n : Nat) :
    w.extractLsb' n 1 = BitVec.ofBool (w.getLsbD n) := by
  apply BitVec.eq_of_getLsbD_eq
  intro k hk
  obtain rfl : k = 0 := by omega
  simp

/-- A set mode bit as a field of its word (R107, R108). -/
theorem one_eq_extractLsb' {w : Word} {n : Nat} (h : w.getLsbD n = true) :
    1#1 = w.extractLsb' n 1 := by
  rw [extractLsb'_one, h]
  rfl

/-- A clear mode bit as a field of its word (R107, R108). -/
theorem zero_eq_extractLsb' {w : Word} {n : Nat} (h : ¬ w.getLsbD n = true) :
    0#1 = w.extractLsb' n 1 := by
  rw [extractLsb'_one, Bool.eq_false_of_not_eq_true h]
  rfl

theorem encode_decodeTrap (ign : BitVec 4) (vector : BitVec 8) :
    encode (decodeTrap ign vector) = 0xF#4 ++ ign ++ vector := by
  unfold decodeTrap
  split <;> rfl

/-- The fields that the decoder cuts a word into are all of the word, in order. -/
theorem encode_decode (w : Word) : encode (decode w) = w := by
  unfold decode
  split
  case h_2 hop | h_5 hop | h_6 hop =>
    split <;> rename_i hmode
    · simp only [encode, regBits_regField, ← hop, opcodeField, one_eq_extractLsb' hmode,
        BitVec.extractLsb'_append_extractLsb'_eq_extractLsb']
      exact BitVec.extractLsb'_eq_self
    · simp only [encode, regBits_regField, ← hop, opcodeField, zero_eq_extractLsb' hmode,
        BitVec.extractLsb'_append_extractLsb'_eq_extractLsb']
      exact BitVec.extractLsb'_eq_self
  case h_16 =>
    -- the opcode that the other fifteen arms leave
    have hop : opcodeField w = 0xF#4 := by
      generalize opcodeField w = op at *
      revert op
      decide
    simp only [encode_decodeTrap, ← hop, opcodeField,
      BitVec.extractLsb'_append_extractLsb'_eq_extractLsb']
    exact BitVec.extractLsb'_eq_self
  all_goals
    rename_i hop
    simp only [encode, regBits_regField, ← hop, opcodeField,
      BitVec.extractLsb'_append_extractLsb'_eq_extractLsb']
    exact BitVec.extractLsb'_eq_self

theorem wf_decodeTrap (ign : BitVec 4) (vector : BitVec 8) :
    (decodeTrap ign vector).wf = true := by
  by_cases h : vector ∈ recognisedVectors
  · obtain rfl | rfl | rfl | rfl | rfl | rfl := mem_recognisedVectors_iff.1 h <;> rfl
  · rw [decodeTrap_of_not_mem ign h]
    exact (Instr.wf_trapInvalid_iff ign vector).2 h

theorem wf_decode (w : Word) : (decode w).wf = true := by
  unfold decode
  split
  case h_16 => exact wf_decodeTrap _ _
  case h_2 | h_5 | h_6 => split <;> rfl
  all_goals rfl

/-- Settles O1: the encoder and the decoder place every field at the same bits. -/
theorem decodeAndEncodeAgree : Obligations.DecodeAndEncodeAgree :=
  ⟨fun _ => decode_encode, fun w => ⟨wf_decode w, encode_decode w⟩⟩

/-- Settles O2: the decoder is evaluated on each of the printed words. -/
theorem specWordsDecodeAsPrinted : Obligations.SpecWordsDecodeAsPrinted := by
  unfold Obligations.SpecWordsDecodeAsPrinted
  decide

end Sys2Proof
end

section
/-! The bits that no rule reads (spec/30_encoding.md R110). -/

namespace Sys2Proof

/-! ## Words that agree under a mask -/

/-- Words that agree under a mask agree in every field the mask covers. -/
theorem extractLsb'_eq_of_and_eq {w w' m : Word} (h : w &&& m = w' &&& m) {lo n : Nat}
    (hm : m.extractLsb' lo n = BitVec.allOnes n) : w.extractLsb' lo n = w'.extractLsb' lo n := by
  have hfield := congrArg (BitVec.extractLsb' lo n) h
  simpa only [BitVec.extractLsb'_and, hm, BitVec.and_allOnes] using hfield

theorem regField_eq_of_and_eq {w w' m : Word} (h : w &&& m = w' &&& m) {lo : Nat}
    (hm : m.extractLsb' lo 3 = BitVec.allOnes 3) : regField w lo = regField w' lo :=
  congrArg BitVec.toFin (extractLsb'_eq_of_and_eq h hm)

theorem getLsbD_eq_of_and_eq {w w' m : Word} (h : w &&& m = w' &&& m) {n : Nat}
    (hm : m.getLsbD n = true) : w.getLsbD n = w'.getLsbD n := by
  have hbit := congrArg (BitVec.getLsbD · n) h
  simpa only [BitVec.getLsbD_and, hm, Bool.and_true] using hbit

/-- A mask that leaves nothing out. -/
theorem eq_of_and_eq {w w' : Word} (h : w &&& 0xFFFF = w' &&& 0xFFFF) : w = w' := by
  rwa [show (0xFFFF : Word) = BitVec.allOnes 16 from rfl, BitVec.and_allOnes,
    BitVec.and_allOnes] at h

/-- The opcode is read in every word. -/
theorem readMask_opcode (w : Word) : (readMask w).extractLsb' 12 4 = BitVec.allOnes 4 := by
  unfold readMask
  split_ifs <;> rfl

/-! ## The formats that have ignored bits -/

theorem decode_addReg {w : Word} (hop : opcodeField w = 0x1) (hmode : ¬ w.getLsbD 5 = true) :
    decode w = .addReg (regField w 9) (regField w 6) (w.extractLsb' 3 2) (regField w 0) := by
  rw [decode, hop]
  exact if_neg hmode

theorem decode_andReg {w : Word} (hop : opcodeField w = 0x5) (hmode : ¬ w.getLsbD 5 = true) :
    decode w = .andReg (regField w 9) (regField w 6) (w.extractLsb' 3 2) (regField w 0) := by
  rw [decode, hop]
  exact if_neg hmode

theorem decode_not {w : Word} (hop : opcodeField w = 0x9) :
    decode w = .not (regField w 9) (regField w 6) (w.extractLsb' 0 6) := by
  rw [decode, hop]
  rfl

theorem decode_jmp {w : Word} (hop : opcodeField w = 0xC) :
    decode w = .jmp (w.extractLsb' 9 3) (regField w 6) (w.extractLsb' 0 6) := by
  rw [decode, hop]
  rfl

theorem decode_jsrr {w : Word} (hop : opcodeField w = 0x4) (hmode : ¬ w.getLsbD 11 = true) :
    decode w = .jsrr (w.extractLsb' 9 2) (regField w 6) (w.extractLsb' 0 6) := by
  rw [decode, hop]
  exact if_neg hmode

theorem decode_trap {w : Word} (hop : opcodeField w = 0xF) :
    decode w = decodeTrap (w.extractLsb' 8 4) (w.extractLsb' 0 8) := by
  rw [decode, hop]
  rfl

end Sys2Proof

namespace Sys2Proof.Machine

/-- A routine does not read the ignored bits of its TRAP. -/
theorem exec_decodeTrap_of_mem {vector : BitVec 8} (h : vector ∈ recognisedVectors)
    (ign ign' : BitVec 4) (s : State) :
    exec (decodeTrap ign vector) s = exec (decodeTrap ign' vector) s := by
  obtain rfl | rfl | rfl | rfl | rfl | rfl := mem_recognisedVectors_iff.1 h <;> rfl

/-- Settles O3: where the mask leaves bits out, they are those of the `ign` fields, which no meaning
reads; elsewhere the two words are equal. -/
theorem ignoredBitsHaveNoEffect : Obligations.IgnoredBitsHaveNoEffect := by
  intro w w' h s
  have hop : opcodeField w = opcodeField w' := extractLsb'_eq_of_and_eq h (readMask_opcode w)
  unfold readMask at h
  split_ifs at h with hmath hmode hnot hjmp hcall hmode htrap
  · rw [eq_of_and_eq h]
  · have hmode' : ¬ w'.getLsbD 5 = true := by rwa [← getLsbD_eq_of_and_eq h rfl]
    have hdr := regField_eq_of_and_eq h (lo := 9) rfl
    have hsr1 := regField_eq_of_and_eq h (lo := 6) rfl
    have hsr2 := regField_eq_of_and_eq h (lo := 0) rfl
    obtain hadd | hand := hmath
    · rw [decode_addReg hadd hmode, decode_addReg (hop.symm.trans hadd) hmode', hdr, hsr1, hsr2]
      rfl
    · rw [decode_andReg hand hmode, decode_andReg (hop.symm.trans hand) hmode', hdr, hsr1, hsr2]
      rfl
  · rw [decode_not hnot, decode_not (hop.symm.trans hnot), regField_eq_of_and_eq h (lo := 9) rfl,
      regField_eq_of_and_eq h (lo := 6) rfl]
    rfl
  · rw [decode_jmp hjmp, decode_jmp (hop.symm.trans hjmp), regField_eq_of_and_eq h (lo := 6) rfl]
    rfl
  · rw [eq_of_and_eq h]
  · have hmode' : ¬ w'.getLsbD 11 = true := by rwa [← getLsbD_eq_of_and_eq h rfl]
    rw [decode_jsrr hcall hmode, decode_jsrr (hop.symm.trans hcall) hmode',
      regField_eq_of_and_eq h (lo := 6) rfl]
    rfl
  · obtain ⟨htrap, hvector⟩ := htrap
    rw [decode_trap htrap, decode_trap (hop.symm.trans htrap),
      ← extractLsb'_eq_of_and_eq h (lo := 0) (n := 8) rfl]
    exact exec_decodeTrap_of_mem (List.contains_iff_mem.1 hvector) _ _ s
  · rw [eq_of_and_eq h]

end Sys2Proof.Machine
end

section
/-! Fatal errors and the fetch (spec/30_encoding.md R111, R112, R120 to R122;
spec/44_invalid.md R240; spec/60_exceptions.md R250 to R252). -/

namespace Sys2Proof

theorem vector_encode_trapInvalid (ign : BitVec 4) (vector : BitVec 8) :
    (encode (.trapInvalid ign vector)).extractLsb' 0 8 = vector :=
  BitVec.extractLsb'_append_eq_right

/-- R111 on the instruction's side: the illegal words are those of the instructions that end a run
FATAL. -/
theorem illegalWord_encode_iff {i : Instr} (h : i.wf = true) :
    IllegalWord (encode i) ↔ i.RaisesFatal := by
  rw [IllegalWord, opcodeField_encode]
  cases i with
  | rti ign => exact iff_of_true (.inl rfl) (.rti ign)
  | res ign => exact iff_of_true (.inr (.inl rfl)) (.res ign)
  | trapInvalid ign vector =>
    refine iff_of_true (.inr (.inr ⟨rfl, ?_⟩)) (.trapInvalid ign vector)
    rw [vector_encode_trapInvalid]
    exact (Instr.wf_trapInvalid_iff ign vector).1 h
  | trapGetc | trapOut | trapPuts | trapIn | trapPutsp | trapHalt =>
    refine iff_of_false ?_ nofun
    rw [encode, BitVec.extractLsb'_append_eq_right]
    simp [Instr.opcode, recognisedVectors]
  | addReg | addImm | andReg | andImm | not | br | jmp | jsr | jsrr | ld | ldi | ldr | lea | st
  | sti | str => exact iff_of_false (by simp [Instr.opcode]) nofun

/-- The cause that R252 has a fatal error record of its word. -/
def fatalCause (w : Word) : Machine.FatalCause :=
  if opcodeField w = 0xF then .invalidTrapVector (w.extractLsb' 0 8)
  else .invalidOpcode (opcodeField w)

end Sys2Proof

namespace Sys2Proof.Machine

/-- What an instruction that ends the run FATAL records (R252). -/
theorem exec_of_raisesFatal {i : Instr} (h : i.RaisesFatal) (s : State) :
    ∃ t, exec i s = .next t ∧ t.run = .fatal
      { cause := fatalCause (encode i), word := encode i, address := s.pc - 1 } := by
  rw [fatalCause, opcodeField_encode]
  cases h with
  | rti ign => exact ⟨_, rfl, rfl⟩
  | res ign => exact ⟨_, rfl, rfl⟩
  | trapInvalid ign vector =>
    refine ⟨_, rfl, ?_⟩
    rw [vector_encode_trapInvalid]
    rfl

/-- From RUNNING, only an instruction that raises a fatal error leaves the run FATAL. -/
theorem raisesFatal_of_exec {i : Instr} {s t : State} (h : exec i s = .next t)
    (hrun : s.run = .running) (ht : t.Fatal) : i.RaisesFatal := by
  obtain ⟨info, hinfo⟩ := ht
  obtain e | ⟨e, -⟩ | ⟨-, -, hi⟩ | ⟨e, -⟩ := exec_run h
  · simp [hinfo, hrun] at e
  · simp [hinfo] at e
  · exact hi
  · simp [hinfo] at e

/-- Settles O4: the word is illegal exactly where its instruction raises a fatal error, and the
instruction's word is `w` itself. -/
theorem fatalExactlyForIllegalWords : Obligations.FatalExactlyForIllegalWords := by
  intro w s t hrun h
  have hillegal : IllegalWord w ↔ (decode w).RaisesFatal := by
    rw [← illegalWord_encode_iff (wf_decode w), encode_decode]
  have hrecord (hi : (decode w).RaisesFatal) : t.run = .fatal
      { cause := fatalCause w, word := w, address := s.pc - 1 } := by
    obtain ⟨t', ht', hinfo⟩ := exec_of_raisesFatal hi s
    rw [h] at ht'
    cases ht'
    rwa [encode_decode] at hinfo
  refine ⟨⟨fun ht => hillegal.2 (raisesFatal_of_exec h hrun ht),
    fun hw => ⟨_, hrecord (hillegal.1 hw)⟩⟩, fun info hinfo => ?_⟩
  have hr := hrecord (raisesFatal_of_exec h hrun ⟨info, hinfo⟩)
  rw [hinfo] at hr
  cases hr
  exact ⟨rfl, rfl, rfl⟩

/-! ## The step's fetch -/

/-- Settles O45: the step of a running machine that the host does not abort. -/
theorem stepRunsDecodedInstruction : Obligations.StepRunsDecodedInstruction := by
  rintro s r w i hrun hab hread rfl
  simp only [step, hrun, if_neg hab, State.fetch, hread]

/-- The step of a running machine at KBSR runs what the poll leaves there (R121). -/
theorem step_at_kbsr {s : State} {w : Word} (hrun : s.run = .running)
    (hab : s.hostAbort ≠ some .boundary) (hpc : s.pc = kbsr)
    (hw : s.pollKeyboard.mem.read kbsr = w) :
    step s = exec (decode w) { s.pollKeyboard with pc := kbsr + 1 } := by
  rw [← hpc]
  refine stepRunsDecodedInstruction s s.pollKeyboard w _ hrun hab ?_ rfl
  rw [State.memRead, hpc, State.touch_kbsr, hw]

/-- BR with no flag named goes on at the next word (R112). -/
theorem exec_nop (off9 : BitVec 9) (s : State) : exec (.br 0 off9) s = .next s := by
  simp [exec, execBr, State.branchTaken]

/-- Settles O46: the poll leaves 0x8000, an RTI, in KBSR, or 0x0000, a BR that is never taken. -/
theorem fetchFromKbsrPolls : Obligations.FetchFromKbsrPolls := by
  intro s hrun hab hpc
  rw [show (0xFE00 : Word) = kbsr from rfl] at hpc ⊢
  constructor
  · intro hpoll
    obtain ⟨-, -, -, -, hread, -, -⟩ := State.pollKeyboard_pending hpoll
    obtain ⟨t, ht, hinfo⟩ := exec_of_raisesFatal (.rti 0) { s.pollKeyboard with pc := kbsr + 1 }
    refine ⟨t, ?_, ?_⟩
    · rw [step_at_kbsr hrun hab hpc hread, show decode kbsrReady = .rti 0 by decide, ht]
    · rw [hinfo, BitVec.add_sub_cancel, show encode (.rti 0) = 0x8000 by decide,
        show fatalCause 0x8000 = .invalidOpcode 0x8 by decide]
  · intro hpoll
    obtain ⟨-, hread, hmem⟩ := State.pollKeyboard_idle hpoll
    obtain ⟨hregs, -, hcond, hrunKept, -⟩ := s.pollKeyboard_kept
    refine ⟨{ s.pollKeyboard with pc := kbsr + 1 }, ?_, (by decide : kbsr + 1 = 0xFE01),
      hrunKept.trans hrun, hread, hmem, fun r _ => ?_, hcond⟩
    · rw [step_at_kbsr hrun hab hpc hread, show decode kbsrIdle = .br 0 0 by decide, exec_nop]
    · simp only [State.reg, hregs]

end Sys2Proof.Machine
end

section
/-! The operate instructions ADD, AND and NOT (spec/40_operate.md R140 to R145, R147). -/

namespace Sys2Proof

theorem decode_addImm {w : Word} (hop : opcodeField w = 0x1) (hmode : w.getLsbD 5 = true) :
    decode w = .addImm (regField w 9) (regField w 6) (w.extractLsb' 0 5) := by
  rw [decode, hop]
  exact if_pos hmode

theorem decode_andImm {w : Word} (hop : opcodeField w = 0x5) (hmode : w.getLsbD 5 = true) :
    decode w = .andImm (regField w 9) (regField w 6) (w.extractLsb' 0 5) := by
  rw [decode, hop]
  exact if_pos hmode

end Sys2Proof

namespace Sys2Proof.Machine

/-! ## Result and frame -/

/-- The write that every flag-updating instruction ends with changes DR and COND alone (R39). -/
theorem resultIn_writeResult (s : State) (dr : Reg) (v : Word) :
    ResultIn dr v s (s.writeResult dr v) where
  value := s.reg_writeResult_self dr v
  flags := s.cond_writeResult dr v
  regs r hr := by rw [s.reg_writeResult, if_neg (by simpa using hr)]
  pc := s.pc_writeResult dr v
  memory := .of_mem_eq (s.mem_writeResult dr v) _
  outside := ⟨rfl, rfl, rfl, rfl⟩

/-- Settles O11: the operands are read before DR is written, so DR may be a source. -/
theorem addRegister : Obligations.AddRegister :=
  ⟨fun _ hop hmode => decode_addReg hop (ne_true_of_eq_false hmode),
    fun dr _ _ _ s => ⟨_, rfl, resultIn_writeResult s dr _⟩⟩

/-- Settles O12: `sext` of the model is the library's sign extension. -/
theorem addImmediate : Obligations.AddImmediate :=
  ⟨fun _ => decode_addImm, fun dr _ _ s => ⟨_, rfl, resultIn_writeResult s dr _⟩⟩

/-- Settles O13, as O11. -/
theorem andRegister : Obligations.AndRegister :=
  ⟨fun _ hop hmode => decode_andReg hop (ne_true_of_eq_false hmode),
    fun dr _ _ _ s => ⟨_, rfl, resultIn_writeResult s dr _⟩⟩

/-- Settles O14, as O12. -/
theorem andImmediate : Obligations.AndImmediate :=
  ⟨fun _ => decode_andImm, fun dr _ _ s => ⟨_, rfl, resultIn_writeResult s dr _⟩⟩

/-- Settles O15: the model's complement is the exclusive or with the word of ones (R144). -/
theorem notComplements : Obligations.NotComplements := by
  refine ⟨fun _ => decode_not, fun dr sr ign s => ⟨_, rfl, ?_⟩⟩
  rw [show (0xFFFF : Word) = BitVec.allOnes 16 from rfl, BitVec.xor_allOnes]
  exact resultIn_writeResult s dr _

/-! ## The sum modulo 2^16 -/

/-- A signed sum in a word's range does not wrap (R145). -/
theorem toInt_add_of_fits {a b : Word} (hlo : -32768 ≤ a.toInt + b.toInt)
    (hhi : a.toInt + b.toInt ≤ 32767) : (a + b).toInt = a.toInt + b.toInt := by
  rw [BitVec.toInt_add]
  exact Int.bmod_eq_of_le (by omega) (by omega)

/-- What R145 says of a state that has a sum as its result. -/
theorem ResultIn.add_wraps {dr : Reg} {a b : Word} {s t : State} (h : ResultIn dr (a + b) s t) :
    t.run = s.run ∧ t.cond = condOf (t.reg dr) ∧
      (t.reg dr).toNat = (a.toNat + b.toNat) % 65536 ∧
      (-32768 ≤ a.toInt + b.toInt → a.toInt + b.toInt ≤ 32767 →
        (t.reg dr).toInt = a.toInt + b.toInt) := by
  rw [h.value]
  exact ⟨h.outside.run, h.flags, BitVec.toNat_add a b, toInt_add_of_fits⟩

/-- Settles O16: both modes have a sum as their result, and an immediate's sign extension has the
immediate's signed value. -/
theorem addWrapsWithoutTrap : Obligations.AddWrapsWithoutTrap := by
  intro dr sr1 s
  constructor
  · intro ign sr2
    obtain ⟨t, ht, hresult⟩ := addRegister.2 dr sr1 ign sr2 s
    exact ⟨t, ht, hresult.add_wraps⟩
  · intro imm5
    obtain ⟨t, ht, hresult⟩ := addImmediate.2 dr sr1 imm5 s
    have hsext : (imm5.signExtend 16).toInt = imm5.toInt :=
      BitVec.toInt_signExtend_of_le (by decide)
    rw [← hsext]
    exact ⟨t, ht, hresult.add_wraps⟩

/-- Settles O17: the two forms differ in nothing but where the second operand comes from. -/
theorem immediateAndRegisterModesAgree : Obligations.ImmediateAndRegisterModesAgree := by
  intro dr sr1 ign sr2 imm5 s h
  constructor
  · rw [exec, execAddReg, h]
    rfl
  · rw [exec, execAndReg, h]
    rfl

end Sys2Proof.Machine
end

section
/-! The control instructions BR, JMP, JSR and JSRR (spec/41_control.md R160 to R163). -/

namespace Sys2Proof

theorem decode_br {w : Word} (hop : opcodeField w = 0x0) :
    decode w = .br (w.extractLsb' 9 3) (w.extractLsb' 0 9) := by
  rw [decode, hop]
  rfl

theorem decode_jsr {w : Word} (hop : opcodeField w = 0x4) (hmode : w.getLsbD 11 = true) :
    decode w = .jsr (w.extractLsb' 0 11) := by
  rw [decode, hop]
  exact if_pos hmode

end Sys2Proof

namespace Sys2Proof.Machine

/-! ## What a transfer of control keeps -/

/-- `t` differs from `s` at most in PC and in the registers named: the frame that R160 to R163
share. -/
def ControlFrame (written : List Reg) (s t : State) : Prop :=
  RegsKept written s t ∧ t.cond = s.cond ∧ MemoryKept [] s t ∧ OutsideKept s t

/-- BR and JMP write PC alone. -/
theorem controlFrame_pc (s : State) (target : Word) : ControlFrame [] s { s with pc := target } :=
  ⟨fun _ _ => rfl, rfl, .of_mem_eq rfl _, rfl, rfl, rfl, rfl⟩

/-- JSR and JSRR write the return address to R7, and PC. -/
theorem controlFrame_link (s : State) (target : Word) :
    ControlFrame [7] s { s.setReg 7 s.pc with pc := target } :=
  ⟨fun _ hr => s.reg_setReg_ne s.pc (List.ne_of_not_mem_cons hr), s.cond_setReg 7 s.pc,
    .of_mem_eq (s.mem_setReg 7 s.pc) _, rfl, rfl, rfl, rfl⟩

/-! ## BR's test -/

/-- The test on whole fields is R160's test, flag by flag. -/
theorem State.branchTaken_eq (s : State) (nzp : BitVec 3) :
    s.branchTaken nzp = ((nzp.getLsbD 2 && s.cond.getLsbD 2) ||
      (nzp.getLsbD 1 && s.cond.getLsbD 1) || (nzp.getLsbD 0 && s.cond.getLsbD 0)) := by
  have bitwise : ∀ a b : BitVec 3, (a &&& b != 0) = ((a.getLsbD 2 && b.getLsbD 2) ||
      (a.getLsbD 1 && b.getLsbD 1) || (a.getLsbD 0 && b.getLsbD 0)) := by decide
  rw [State.branchTaken, bitwise]
  simp only [BitVec.getLsbD_extractLsb']
  rfl

/-- A legal COND has a flag set, and `nzp` = 111 names every flag. -/
theorem State.CondLegal.branchTaken_all {s : State} (h : s.CondLegal) :
    s.branchTaken 0b111 = true := by
  rcases h with h | h | h <;> rw [State.branchTaken, h] <;> rfl

theorem State.branchTaken_none (s : State) : s.branchTaken 0b000 = false := by
  rw [s.branchTaken_eq]
  rfl

theorem exec_br (nzp : BitVec 3) (off9 : BitVec 9) (s : State) :
    exec (.br nzp off9) s =
      .next { s with pc := if s.branchTaken nzp then s.pcRelative off9 else s.pc } := by
  rw [exec, execBr]
  cases s.branchTaken nzp <;> rfl

/-- Settles O18: BR's one effect is on PC, and which value it takes is the test's. -/
theorem branchOnMatchingFlag : Obligations.BranchOnMatchingFlag := by
  refine ⟨fun _ => decode_br, fun nzp off9 s => ⟨_, exec_br nzp off9 s, ?_, ?_, ?_,
    controlFrame_pc s _⟩⟩
  · rw [← s.branchTaken_eq nzp]
    rfl
  · rintro rfl hlegal
    exact if_pos hlegal.branchTaken_all
  · rintro rfl
    exact if_neg (ne_true_of_eq_false s.branchTaken_none)

/-! ## Jumps and calls -/

/-- Settles O19: JMP writes BaseR's value to PC and nothing else. -/
theorem jumpThroughRegister : Obligations.JumpThroughRegister :=
  ⟨fun _ => decode_jmp, fun _ _ _ s => ⟨_, rfl, rfl, controlFrame_pc s _⟩⟩

/-- Settles O20: the target comes from the incremented PC, which R7 also takes. -/
theorem callPcRelative : Obligations.CallPcRelative :=
  ⟨fun _ => decode_jsr, fun _ s =>
    ⟨_, rfl, s.reg_setReg_self 7 s.pc, rfl, controlFrame_link s _⟩⟩

/-- JSRR's target: the write of R7 before the read of BaseR is seen only where BaseR is R7 (R163,
decision D17). -/
theorem jsrr_target (s : State) (baseR : Reg) :
    (if s.params.jsrrReadBaseFirst then s.reg baseR else (s.setReg 7 s.pc).reg baseR) =
      if baseR = 7 ∧ s.params.jsrrReadBaseFirst = false then s.pc else s.reg baseR := by
  rw [s.reg_setReg]
  cases s.params.jsrrReadBaseFirst <;> simp

/-- Settles O21: the order of the two register accesses matters for the target of JSRR R7 alone. -/
theorem callThroughRegister : Obligations.CallThroughRegister :=
  ⟨fun _ hop hmode => decode_jsrr hop (ne_true_of_eq_false hmode), fun _ baseR _ s =>
    ⟨_, rfl, s.reg_setReg_self 7 s.pc, jsrr_target s baseR, controlFrame_link s _⟩⟩

end Sys2Proof.Machine
end

section
/-! The loads LD, LDI and LDR, LEA, and the stores ST, STI and STR (spec/42_load_store.md R181 to
R187). -/

namespace Sys2Proof

theorem decode_ld {w : Word} (hop : opcodeField w = 0x2) :
    decode w = .ld (regField w 9) (w.extractLsb' 0 9) := by
  rw [decode, hop]
  rfl

theorem decode_ldi {w : Word} (hop : opcodeField w = 0xA) :
    decode w = .ldi (regField w 9) (w.extractLsb' 0 9) := by
  rw [decode, hop]
  rfl

theorem decode_ldr {w : Word} (hop : opcodeField w = 0x6) :
    decode w = .ldr (regField w 9) (regField w 6) (w.extractLsb' 0 6) := by
  rw [decode, hop]
  rfl

theorem decode_lea {w : Word} (hop : opcodeField w = 0xE) :
    decode w = .lea (regField w 9) (w.extractLsb' 0 9) := by
  rw [decode, hop]
  rfl

theorem decode_st {w : Word} (hop : opcodeField w = 0x3) :
    decode w = .st (regField w 9) (w.extractLsb' 0 9) := by
  rw [decode, hop]
  rfl

theorem decode_sti {w : Word} (hop : opcodeField w = 0xB) :
    decode w = .sti (regField w 9) (w.extractLsb' 0 9) := by
  rw [decode, hop]
  rfl

theorem decode_str {w : Word} (hop : opcodeField w = 0x7) :
    decode w = .str (regField w 9) (regField w 6) (w.extractLsb' 0 6) := by
  rw [decode, hop]
  rfl

end Sys2Proof

namespace Sys2Proof.Machine

/-! ## The frame of reads through the adapter -/

/-- In registers, PC, COND and memory `t` differs from `s` at most in the keyboard's two cells, as
after reads through the adapter (R64, R66). -/
structure ReadFrame (s t : State) : Prop where
  regs : RegsKept [] s t
  pc : t.pc = s.pc
  cond : t.cond = s.cond
  memory : MemoryKept [kbsr, kbdr] s t

theorem readFrame_touch (s : State) (a : Word) : ReadFrame s (s.touch a) :=
  ⟨fun r _ => s.reg_touch a r, s.pc_touch a, s.cond_touch a, memoryKept_touch s a⟩

theorem ReadFrame.trans {s t u : State} (h : ReadFrame s t) (h' : ReadFrame t u) :
    ReadFrame s u where
  regs r hr := (h'.regs r hr).trans (h.regs r hr)
  pc := h'.pc.trans h.pc
  cond := h'.cond.trans h.cond
  memory := h.memory.trans h'.memory

/-- A result written after reads: the frame of the three loads. -/
theorem ResultIn.after_reads {dr : Reg} {v : Word} {s u t : State} (h : ResultIn dr v u t)
    (hu : ReadFrame s u) :
    RegsKept [dr] s t ∧ t.pc = s.pc ∧ MemoryKept [kbsr, kbdr] s t :=
  ⟨fun r hr => (h.regs r hr).trans (hu.regs r List.not_mem_nil), h.pc.trans hu.pc,
    fun a ha => (h.memory a List.not_mem_nil).trans (hu.memory a ha)⟩

/-- A store after reads: the frame of STI. -/
theorem StoredAt.after_reads {a v : Word} {s u t : State} (h : StoredAt a v u t)
    (hu : ReadFrame s u) :
    MemoryKept [a, kbsr, kbdr] s t ∧ RegsKept [] s t ∧ t.pc = s.pc ∧ t.cond = s.cond := by
  refine ⟨fun b hb => ?_, fun r hr => (h.regs r hr).trans (hu.regs r hr), h.pc.trans hu.pc,
    h.cond.trans hu.cond⟩
  have hba : b ∉ [a] := List.mem_singleton.not.2 (List.ne_of_not_mem_cons hb)
  exact (h.memory b hba).trans (hu.memory b (List.not_mem_of_not_mem_cons hb))

/-! ## Loads -/

/-- A load writes the word its read gives into the state after that read (R181 to R183). -/
theorem resultIn_loadFrom (s : State) (dr : Reg) (ea : Word) :
    ResultIn dr (s.memRead ea).1 (s.memRead ea).2 (s.loadFrom dr ea) :=
  resultIn_writeResult _ dr _

/-- Away from KBSR a load is a plain one (R66). -/
theorem resultIn_loadFrom_ne (s : State) (dr : Reg) {ea : Word} (h : ea ≠ kbsr) :
    ResultIn dr (s.mem.read ea) s (s.loadFrom dr ea) := by
  have hload := resultIn_loadFrom s dr ea
  rwa [s.memRead_ne h] at hload

/-- Settles O22: LD is a load from its PC-relative address. -/
theorem loadPcRelative : Obligations.LoadPcRelative :=
  ⟨fun _ => decode_ld, fun dr off9 s => ⟨s.loadFrom dr (s.pcRelative off9), rfl,
    resultIn_loadFrom s dr _, resultIn_loadFrom_ne s dr,
    (resultIn_loadFrom s dr _).after_reads (readFrame_touch s _)⟩⟩

/-- Settles O23: LDI is a load from the pointer, in the state that the pointer's read left. -/
theorem loadIndirect : Obligations.LoadIndirect := by
  refine ⟨fun _ => decode_ldi, fun dr off9 s => ⟨_, rfl, ?_, fun hea hptr => ?_,
    (resultIn_loadFrom _ dr _).after_reads ((readFrame_touch s _).trans (readFrame_touch _ _))⟩⟩
  · rintro p r ⟨⟩
    exact resultIn_loadFrom _ dr _
  · rw [show s.indirect off9 = (s.mem.read (s.pcRelative off9), s) from s.memRead_ne hea]
    exact resultIn_loadFrom_ne s dr hptr

/-- Settles O24: LDR is a load from its base-plus-offset address, which is formed before DR is
written. -/
theorem loadBaseOffset : Obligations.LoadBaseOffset :=
  ⟨fun _ => decode_ldr, fun dr baseR off6 s => ⟨s.loadFrom dr (s.baseOffset baseR off6), rfl,
    resultIn_loadFrom s dr _, resultIn_loadFrom_ne s dr,
    (resultIn_loadFrom s dr _).after_reads (readFrame_touch s _)⟩⟩

/-- Settles O25: LEA's result is its address, and nothing is read. -/
theorem loadEffectiveAddress : Obligations.LoadEffectiveAddress :=
  ⟨fun _ => decode_lea, fun dr _ s => ⟨_, rfl, resultIn_writeResult s dr _⟩⟩

/-! ## Stores -/

/-- Settles O26: ST is one plain store. -/
theorem storePcRelative : Obligations.StorePcRelative :=
  ⟨fun _ => decode_st, fun _ _ s => ⟨_, rfl, storedAt_memWrite s _ _⟩⟩

/-- STI stores SR's value from before the pointer's read, which keeps every register (R186). -/
theorem exec_sti (sr : Reg) (off9 : BitVec 9) (s : State) :
    exec (.sti sr off9) s =
      .next ((s.indirect off9).2.memWrite (s.indirect off9).1 (s.reg sr)) := by
  rw [exec, execSti, State.indirect, s.memRead_snd, s.reg_touch]

/-- Settles O27: STI is a plain store at the pointer, in the state that the pointer's read left. -/
theorem storeIndirect : Obligations.StoreIndirect := by
  refine ⟨fun _ => decode_sti, fun sr off9 s => ⟨_, exec_sti sr off9 s, ?_, fun hea => ?_, ?_⟩⟩
  · rintro p r ⟨⟩
    have hstore := storedAt_memWrite (s.indirect off9).2 (s.indirect off9).1 (s.reg sr)
    exact ⟨hstore, (hstore.after_reads (readFrame_touch s _)).1⟩
  · rw [show s.indirect off9 = (s.mem.read (s.pcRelative off9), s) from s.memRead_ne hea]
    exact storedAt_memWrite s _ _
  · exact ((storedAt_memWrite _ _ _).after_reads (readFrame_touch s _)).2

/-- Settles O28: STR is one plain store. -/
theorem storeBaseOffset : Obligations.StoreBaseOffset :=
  ⟨fun _ => decode_str, fun _ _ _ s => ⟨_, rfl, storedAt_memWrite s _ _⟩⟩

end Sys2Proof.Machine
end

section
/-! TRAP, its six routines and its invalid vectors (spec/43_trap.md R210 to R221). -/

namespace Sys2Proof

/-- A TRAP's vector selects its routine (R105, R210, R211). -/
theorem decode_trap_of_vector {w : Word} {vector : BitVec 8} (hop : opcodeField w = 0xF)
    (hvec : w.extractLsb' 0 8 = vector) : decode w = decodeTrap (w.extractLsb' 8 4) vector := by
  rw [decode_trap hop, hvec]

end Sys2Proof

namespace Sys2Proof.Machine

/-! ## The bytes of a word -/

theorem lowByte_eq_setWidth (v : Word) : lowByte v = v.setWidth 8 :=
  (BitVec.setWidth_eq_extractLsb' (by decide)).symm

theorem lowByte_zext8 (c : Byte) : lowByte (zext8 c) = c := by
  rw [lowByte_eq_setWidth, zext8, BitVec.setWidth_setWidth_of_le c (by decide), BitVec.setWidth_eq]

theorem putsBytes_eq (v : Word) : putsBytes v = [v.setWidth 8] :=
  congrArg (fun b => [b]) (lowByte_eq_setWidth v)

theorem putspBytes_eq (v : Word) : putspBytes v =
    v.setWidth 8 :: if v.extractLsb' 8 8 = 0 then [] else [v.extractLsb' 8 8] := by
  rw [putspBytes, lowByte_eq_setWidth, highByte]
  split_ifs <;> rfl

theorem putsBytes_ne_nil (v : Word) : putsBytes v ≠ [] := List.cons_ne_nil _ _

theorem putspBytes_ne_nil (v : Word) : putspBytes v ≠ [] := by
  rw [putspBytes_eq]
  exact List.cons_ne_nil _ _

/-- A zero-extended byte is never negative: its flag is Z or P (R212). -/
theorem condOf_zext8 (c : Byte) : condOf (zext8 c) = if c = 0 then condZ else condP := by
  have hzero : zext8 c = 0 ↔ c = 0 :=
    ⟨fun h => by rw [← lowByte_zext8 c, h]; rfl, fun h => by rw [h]; rfl⟩
  have hsign : (zext8 c).getLsbD 15 = false := by simp [zext8]
  simp only [condOf, hzero, hsign, Bool.false_eq_true, if_false]

/-! ## What a routine leaves behind -/

/-- Trap entry writes R7 alone (R210). -/
theorem trapKept_enterTrap (s : State) : TrapKept [7] s s.enterTrap where
  regs _ hr := s.reg_setReg_ne s.pc (List.ne_of_not_mem_cons hr)
  pc := rfl
  memory := .of_mem_eq s.mem_enterTrap _
  hostAbort := rfl
  params := rfl

theorem reg_seven_enterTrap (s : State) : s.enterTrap.reg 7 = s.pc := s.reg_setReg_self 7 s.pc

theorem reg_zero_enterTrap (s : State) : s.enterTrap.reg 0 = s.reg 0 :=
  s.reg_setReg_ne s.pc (by decide)

/-- `t` is `s` with the return address in R7 and `bs` appended to the output; nothing else differs:
what OUT, PUTS and PUTSP share (R213, R214, R216). -/
def TrapWrote (bs : List Byte) (s t : State) : Prop :=
  t.reg 7 = s.pc ∧ t.io = { s.io with output := s.io.output ++ bs } ∧
    t.cond = s.cond ∧ t.run = s.run ∧ TrapKept [7] s t

theorem trapWrote_writeChars (s : State) (bs : List Byte) :
    TrapWrote bs s (s.enterTrap.writeChars bs) :=
  ⟨reg_seven_enterTrap s, rfl, rfl, rfl, { trapKept_enterTrap s with }⟩

/-- `t` is `s` with `v` in R0, its flag in COND, the return address in R7 and the terminal's side
`io`; nothing else differs: what GETC and IN share (R212, R215). -/
structure TrapRead (v : Word) (io : Io) (s t : State) : Prop where
  value : t.reg 0 = v
  link : t.reg 7 = s.pc
  flags : t.cond = condOf v
  io : t.io = io
  run : t.run = s.run
  kept : TrapKept [0, 7] s t

theorem trapRead_writeResult (s : State) (v : Word) (io : Io) :
    TrapRead v io s ({ s.enterTrap with io := io }.writeResult 0 v) where
  value := State.reg_writeResult_self _ 0 v
  link := (State.reg_writeResult _ 0 7 v).trans (reg_seven_enterTrap s)
  flags := rfl
  io := rfl
  run := rfl
  kept :=
    { trapKept_enterTrap s with
      regs := fun r hr =>
        (State.reg_setReg_ne _ v (List.ne_of_not_mem_cons hr)).trans
          ((trapKept_enterTrap s).regs r (List.not_mem_of_not_mem_cons hr)) }

/-- The host's abort keeps of the step only what the terminal has been given (R262, R219). -/
theorem abortedInStep_abortInStep {s now : State} {out : List Byte}
    (h : now.io = { s.io with output := out }) : AbortedInStep out s (s.abortInStep now) where
  run := rfl
  regs _ _ := rfl
  pc := rfl
  cond := rfl
  memory := .of_mem_eq (s.mem_abortInStep now) _
  io := h

/-! ## The blocking read, case by case -/

section
variable {entry : State} (now : State) {k : Word → State → Result}

theorem readCharThen_aborted (hab : now.hostAbort = some .duringRead) :
    entry.readCharThen now k = .next (entry.abortInStep now) := if_pos hab

theorem readCharThen_byte (hab : now.hostAbort ≠ some .duringRead) {c : Byte} {io : Io}
    (hc : now.io.takeByte = some (c, io)) :
    entry.readCharThen now k = k (zext8 c) { now with io := io } := by
  simp [State.readCharThen, hab, hc]

theorem readCharThen_value (hab : now.hostAbort ≠ some .duringRead)
    (hend : now.io.takeByte = none) {v : Word} (hv : now.params.eofPolicy = .value v) :
    entry.readCharThen now k = k v now := by
  simp [State.readCharThen, hab, hend, hv]

theorem readCharThen_stuck (hab : now.hostAbort ≠ some .duringRead)
    (hend : now.io.takeByte = none) (hstuck : now.params.eofPolicy = .stuck) :
    entry.readCharThen now k = .fault (.readNeverCompletes now.io) := by
  simp [State.readCharThen, hab, hend, hstuck]

end

/-- The output plays no part in what is taken from the input. -/
theorem Io.takeByte_withOutput (io : Io) (out : List Byte) :
    { io with output := out }.takeByte =
      io.takeByte.map fun p => (p.1, { p.2 with output := out }) := by
  unfold Io.takeByte
  rcases io.inq with _ | ⟨b, bs⟩
  · cases io.tail <;> rfl
  · rfl

/-! ## GETC and IN -/

/-- Settles O29: the four cases of the blocking read, entered with R7 written and no output. -/
theorem getcReadsOneCharacter : Obligations.GetcReadsOneCharacter := by
  refine ⟨fun _ => decode_trap_of_vector, fun ign s => ?_⟩
  rw [exec, execTrapGetc]
  refine ⟨fun hab c io hc => ?_, fun hab hend v hv => ?_, readCharThen_stuck s.enterTrap,
    fun hab => ⟨_, readCharThen_aborted _ hab, abortedInStep_abortInStep rfl⟩⟩
  · obtain ⟨hvalue, hlink, hflags, hio, hrun, hkept⟩ := trapRead_writeResult s (zext8 c) io
    exact ⟨_, readCharThen_byte s.enterTrap hab hc, hvalue, hlink, hflags.trans (condOf_zext8 c),
      hio, hrun, hkept⟩
  · obtain ⟨hvalue, hlink, hflags, hio, hrun, hkept⟩ := trapRead_writeResult s v s.io
    exact ⟨_, readCharThen_value s.enterTrap hab hend hv, hvalue, hlink, hflags, hio, hrun, hkept⟩

/-- Settles O32: the four cases of the blocking read, entered with R7 written and the prompt in the
trace. -/
theorem inPromptsReadsAndEchoes : Obligations.InPromptsReadsAndEchoes := by
  refine ⟨fun _ => decode_trap_of_vector, fun ign s => ?_⟩
  rw [exec, execTrapIn]
  have hend (h : s.io.takeByte = none) :
      (s.enterTrap.writeChars s.params.inPrompt).io.takeByte = none :=
    (s.io.takeByte_withOutput _).trans (by rw [h]; rfl)
  refine ⟨fun hab c io hc => ?_, fun hab hnone v hv => ?_,
    fun hab hnone => readCharThen_stuck (s.enterTrap.writeChars _) hab (hend hnone),
    fun hab => ⟨_, readCharThen_aborted _ hab, abortedInStep_abortInStep rfl⟩⟩
  · have hbyte : (s.enterTrap.writeChars s.params.inPrompt).io.takeByte =
        some (c, { io with output := s.io.output ++ s.params.inPrompt }) :=
      (s.io.takeByte_withOutput _).trans (by rw [hc]; rfl)
    obtain ⟨hvalue, hlink, hflags, hio, hrun, hkept⟩ := trapRead_writeResult s (zext8 c)
      { io with output := s.io.output ++ s.params.inPrompt ++ [lowByte (zext8 c)] }
    exact ⟨_, readCharThen_byte (s.enterTrap.writeChars _) hab hbyte, hvalue, hlink,
      hflags.trans (condOf_zext8 c), hio.trans (by rw [lowByte_zext8]), hrun, hkept⟩
  · obtain ⟨hvalue, hlink, hflags, hio, hrun, hkept⟩ := trapRead_writeResult s v
      { s.io with output := s.io.output ++ s.params.inPrompt ++ [lowByte v] }
    exact ⟨_, readCharThen_value (s.enterTrap.writeChars _) hab (hend hnone) hv, hvalue, hlink,
      hflags, hrun, hkept, hio.trans (by rw [lowByte_eq_setWidth])⟩

/-! ## OUT -/

/-- Settles O30: OUT's byte is read after R7 is written, which leaves R0 alone. -/
theorem outWritesLowByte : Obligations.OutWritesLowByte := by
  refine ⟨fun _ => decode_trap_of_vector, fun ign s => ⟨_, rfl, ?_⟩⟩
  rw [reg_zero_enterTrap, lowByte_eq_setWidth]
  exact trapWrote_writeChars s _

/-! ## PUTS and PUTSP -/

/-- The string routine inside its trap, where the `n`-th word is the first zero word. -/
theorem writeString_enterTrap (f : Word → List Byte) {s : State} {n : Nat} (hn : n < 65536)
    (h : ∀ k, k < n → s.mem.read (s.reg 0 + BitVec.ofNat 16 k) ≠ 0)
    (hz : s.mem.read (s.reg 0 + BitVec.ofNat 16 n) = 0) :
    ∃ t, s.enterTrap.writeString f = .next t ∧
      TrapWrote (stringOutput f s.mem (s.reg 0) n) s t := by
  refine ⟨_, ?_, trapWrote_writeChars s _⟩
  rw [State.writeString, s.mem_enterTrap, reg_zero_enterTrap, stringBytes_of_zero f s.mem hn h hz]
  rfl

theorem stringOutput_putsBytes (m : Memory) (a : Word) (n : Nat) :
    stringOutput putsBytes m a n =
      (List.range n).map fun k => (m.read (a + BitVec.ofNat 16 k)).setWidth 8 := by
  simp only [stringOutput, putsBytes_eq, List.map_eq_flatMap]

/-- Settles O31: the string routine with the low byte of each word. -/
theorem putsWritesStringUpToZeroWord : Obligations.PutsWritesStringUpToZeroWord := by
  refine ⟨fun _ => decode_trap_of_vector, fun ign s n hn h hz => ?_⟩
  have hwrote := writeString_enterTrap putsBytes hn h hz
  rwa [stringOutput_putsBytes] at hwrote

/-- Settles O33: the string routine with both bytes of each word. -/
theorem putspWritesPackedString : Obligations.PutspWritesPackedString := by
  refine ⟨fun _ => decode_trap_of_vector, fun ign s n hn h hz => ?_⟩
  have hwrote := writeString_enterTrap putspBytes hn h hz
  simp only [stringOutput, putspBytes_eq] at hwrote
  exact hwrote

/-- The string routine completes exactly where memory holds a zero word (R221). -/
theorem writeString_completes_iff (s : State) (f : Word → List Byte) :
    (∃ t, s.writeString f = .next t) ↔ ∃ a, s.mem.read a = 0 := by
  constructor
  · rintro ⟨t, ht⟩
    by_contra! hnone
    rw [State.writeString_endless hnone] at ht
    cases ht
  · rintro ⟨a, ha⟩
    obtain ⟨bs, -, e⟩ | ⟨hnone, -⟩ := s.writeString_cases f
    · exact ⟨_, e⟩
    · exact absurd ha (hnone a)

/-- One pass over the 65,536 words, repeated, is the bytes of the words in order without end. -/
theorem writesForever_stringOutput (io : Io) {f : Word → List Byte} (hf : ∀ v, f v ≠ [])
    (m : Memory) (a : Word) :
    (Fault.stringNeverEnds io (stringOutput f m a 65536)).WritesForever io.output fun k =>
      f (m.read (a + BitVec.ofNat 16 k)) where
  endless k := by
    have hpos : 0 < (stringOutput f m a 65536).length :=
      (List.length_pos_iff.2 (by simpa [stringOutput] using hf (m.read a))).trans_le
        (stringOutput_prefix f m a (n := 1) (by decide)).length_le
    rw [Fault.outputByte]
    split_ifs with hk
    · simpa using hk
    · simpa using Nat.mod_lt _ hpos
  inOrder n k hk := by
    rw [Fault.outputByte]
    split_ifs with hlt
    · rw [List.getElem?_append_left hlt]
    · rw [List.length_append] at hk
      rw [List.getElem?_append_right (by omega)]
      exact (stringOutput_periodic f m a n _ (by rw [stringOutput]; omega)).symm

/-- A string without an end, inside its trap: the terminal is still as it was at the TRAP (R221). -/
theorem writeString_enterTrap_endless {f : Word → List Byte} (hf : ∀ v, f v ≠ []) {s : State}
    (h : ∀ a, s.mem.read a ≠ 0) :
    ∃ period, s.enterTrap.writeString f = .fault (.stringNeverEnds s.io period) ∧
      (Fault.stringNeverEnds s.io period).WritesForever s.io.output fun k =>
        f (s.mem.read (s.reg 0 + BitVec.ofNat 16 k)) := by
  refine ⟨_, ?_, writesForever_stringOutput s.io hf s.mem (s.reg 0)⟩
  rw [State.writeString_endless (s := s.enterTrap) h, reg_zero_enterTrap]
  rfl

/-- Settles O34: R7 plays no part in where the walk goes or what it reads. -/
theorem stringRoutinesEndIffZeroWord : Obligations.StringRoutinesEndIffZeroWord := by
  refine fun ign s => ⟨writeString_completes_iff s.enterTrap putsBytes,
    writeString_completes_iff s.enterTrap putspBytes, fun hnone => ⟨?_, ?_⟩⟩
  · have hhang := writeString_enterTrap_endless putsBytes_ne_nil hnone
    simp only [putsBytes_eq] at hhang
    exact hhang
  · have hhang := writeString_enterTrap_endless putspBytes_ne_nil hnone
    simp only [putspBytes_eq] at hhang
    exact hhang

/-! ## HALT and the invalid vectors -/

/-- Settles O35: the flush comes after the notice. -/
theorem haltNotifiesFlushesAndStops : Obligations.HaltNotifiesFlushesAndStops :=
  ⟨fun _ => decode_trap_of_vector, fun _ s =>
    ⟨_, rfl, rfl, reg_seven_enterTrap s, rfl, rfl, { trapKept_enterTrap s with }⟩⟩

/-- Settles O36: every word is its instruction's, and a FATAL run takes no step. -/
theorem invalidVectorIsFatal : Obligations.InvalidVectorIsFatal :=
  ⟨fun w hop hvec => ⟨(decode_trap hop).trans (decodeTrap_of_not_mem _ hvec), encode_decode w⟩,
    fun _ _ _ => ⟨_, rfl, rfl, rfl, rfl, rfl, rfl⟩⟩

end Sys2Proof.Machine
end

section
/-! The two invalid opcodes, RTI and RES (spec/44_invalid.md R240, R241). -/

namespace Sys2Proof

theorem decode_rti {w : Word} (hop : opcodeField w = 0x8) :
    decode w = .rti (w.extractLsb' 0 12) := by
  rw [decode, hop]
  rfl

theorem decode_res {w : Word} (hop : opcodeField w = 0xD) :
    decode w = .res (w.extractLsb' 0 12) := by
  rw [decode, hop]
  rfl

end Sys2Proof

namespace Sys2Proof.Machine

/-- No step follows a fatal error (R250). -/
theorem step_raiseFatal (s : State) (c : FatalCause) (w : Word) :
    step (s.raiseFatal c w) = .fault .runFatal := by
  rw [step, State.run_raiseFatal]

/-- Where an instruction only raises a fatal error, the run ends with its record and the terminal,
its trace and the host's part of the state are as before (R250, R252). -/
theorem exec_of_eq_raiseFatal {i : Instr} {s : State} {c : FatalCause} {w : Word}
    (h : exec i s = .next (s.raiseFatal c w)) : ∃ t, exec i s = .next t ∧
      t.run = .fatal { cause := c, word := w, address := s.pc - 1 } ∧
      t.io = s.io ∧ t.hostAbort = s.hostAbort ∧ t.params = s.params ∧ step t = .fault .runFatal :=
  ⟨_, h, s.run_raiseFatal c w, s.io_raiseFatal c w, s.hostAbort_raiseFatal c w,
    s.params_raiseFatal c w, step_raiseFatal s c w⟩

/-- Settles O37: RTI only raises the fatal error of opcode 0x8. -/
theorem rtiIsFatal : Obligations.RtiIsFatal :=
  ⟨fun w hop => ⟨decode_rti hop, encode_decode w⟩, fun _ _ => exec_of_eq_raiseFatal rfl⟩

/-- Settles O38: RES only raises the fatal error of opcode 0xD. -/
theorem reservedOpcodeIsFatal : Obligations.ReservedOpcodeIsFatal :=
  ⟨fun w hop => ⟨decode_res hop, encode_decode w⟩, fun _ _ => exec_of_eq_raiseFatal rfl⟩

end Sys2Proof.Machine
end

section
/-! What the host's abort discards, and where an instruction does not complete
(spec/60_exceptions.md R253, R262; spec/20_memory.md R72; spec/43_trap.md R219, R221). -/

namespace Sys2Proof

/-- The instructions that wait for a character in `read_char` (R212, R215). -/
inductive Instr.ReadsChar : Instr → Prop
  | trapGetc (ign : BitVec 4) : ReadsChar (.trapGetc ign)
  | trapIn (ign : BitVec 4) : ReadsChar (.trapIn ign)

end Sys2Proof

namespace Sys2Proof.Machine

/-! ## Instructions that hang -/

/-- A blocking read whose routine always completes hangs only where no byte will ever come and
`EOF_POLICY` is stuck. -/
theorem readCharThen_completes_or_hangs (entry now : State) {k : Word → State → Result}
    (hk : ∀ c u, ∃ t, k c u = .next t) :
    (∃ t, entry.readCharThen now k = .next t) ∨
      (entry.readCharThen now k = .fault (.readNeverCompletes now.io) ∧
        now.io.takeByte = none ∧ now.params.eofPolicy = .stuck ∧
        now.hostAbort ≠ some .duringRead) := by
  obtain ⟨-, e⟩ | ⟨hab, ⟨c, io, -, e⟩ | ⟨-, v, -, e⟩ | ⟨hend, hstuck, e⟩⟩ :=
    entry.readCharThen_cases now k <;> rw [e]
  · exact .inl ⟨_, rfl⟩
  · exact .inl (hk _ _)
  · exact .inl (hk _ _)
  · exact .inr ⟨rfl, hend, hstuck, hab⟩

/-- A string routine hangs only over a memory without a zero word. -/
theorem writeString_completes_or_hangs (s : State) (f : Word → List Byte) :
    (∃ t, s.writeString f = .next t) ∨
      ((∃ io period, s.writeString f = .fault (.stringNeverEnds io period)) ∧
        ∀ a, s.mem.read a ≠ 0) := by
  obtain ⟨bs, -, e⟩ | ⟨hz, e⟩ := s.writeString_cases f
  · exact .inl ⟨_, e⟩
  · exact .inr ⟨⟨_, _, e⟩, hz⟩

/-- Output written before a read does not supply the byte it waits for. -/
theorem takeByte_writeChars_eq_none {s : State} {bs : List Byte}
    (h : (s.writeChars bs).io.takeByte = none) : s.io.takeByte = none := by
  rwa [State.io_writeChars, Io.takeByte_withOutput, Option.map_eq_none_iff] at h

/-- Settles O48: GETC and IN hang with their blocking read, PUTS and PUTSP with their string, and
every other instruction answers a next state. -/
theorem everyInstructionCompletesOrHangs : Obligations.EveryInstructionCompletesOrHangs := by
  intro i s
  cases i with
  | trapGetc ign =>
    rw [exec, execTrapGetc]
    refine (readCharThen_completes_or_hangs s _ fun _ _ => ⟨_, rfl⟩).imp_right ?_
    rintro ⟨e, hend, hstuck, hab⟩
    exact .inl ⟨⟨_, e⟩, hend, hstuck, hab, .inl ⟨ign, rfl⟩⟩
  | trapIn ign =>
    rw [exec, execTrapIn]
    refine (readCharThen_completes_or_hangs s _ fun _ _ => ⟨_, rfl⟩).imp_right ?_
    rintro ⟨e, hend, hstuck, hab⟩
    exact .inl ⟨⟨_, e⟩, takeByte_writeChars_eq_none hend, hstuck, hab, .inr ⟨ign, rfl⟩⟩
  | trapPuts ign =>
    refine (writeString_completes_or_hangs s.enterTrap putsBytes).imp_right ?_
    rintro ⟨e, hz⟩
    exact .inr ⟨e, hz, .inl ⟨ign, rfl⟩⟩
  | trapPutsp ign =>
    refine (writeString_completes_or_hangs s.enterTrap putspBytes).imp_right ?_
    rintro ⟨e, hz⟩
    exact .inr ⟨e, hz, .inr ⟨ign, rfl⟩⟩
  | addReg | addImm | andReg | andImm | not | br | jmp | jsr | jsrr | ld | ldi | ldr | lea | st
  | sti | str | trapOut | trapHalt | trapInvalid | rti | res => exact .inl ⟨_, rfl⟩

/-! ## The abort -/

/-- Settles O55: the step tests for the abort before it fetches, and the abort writes the run state
alone. -/
theorem abortAtBoundaryEndsRun : Obligations.AbortAtBoundaryEndsRun := by
  intro s hrun hab
  refine ⟨s.abortAtBoundary, ?_, rfl, fun r _ => s.reg_abortAtBoundary r, s.pc_abortAtBoundary,
    s.cond_abortAtBoundary, .of_mem_eq s.mem_abortAtBoundary _, s.io_abortAtBoundary⟩
  simp only [step, hrun, if_pos hab]

/-- Only an instruction that waits for a character can end a run ABORTED. -/
theorem readsChar_of_exec_aborted {i : Instr} {s t : State} (h : exec i s = .next t)
    (hs : s.run ≠ .aborted) (ht : t.run = .aborted) : i.ReadsChar := by
  cases i with
  | trapGetc ign => exact .trapGetc ign
  | trapIn ign => exact .trapIn ign
  | trapPuts | trapPutsp =>
    obtain ⟨bs, -, e⟩ | ⟨-, e⟩ := s.enterTrap.writeString_cases _ <;> cases e.symm.trans h
    exact absurd ht hs
  | br =>
    cases h
    split at ht <;> exact absurd ht hs
  | ld | ldi | ldr | sti =>
    cases h
    simp [State.loadFrom, State.indirect, hs] at ht
  | addReg | addImm | andReg | andImm | not | jmp | jsr | jsrr | lea | st | str | trapOut =>
    cases h
    exact absurd ht hs
  | trapHalt | trapInvalid | rti | res =>
    cases h
    cases ht

/-- An instruction that the host aborts keeps of its effects the output alone (R262, R219). -/
theorem exec_aborted {i : Instr} {s t : State} (h : exec i s = .next t)
    (hs : s.run ≠ .aborted) (ht : t.run = .aborted) : s.hostAbort = some .duringRead ∧
      ∃ out, s.io.output <+: out ∧ AbortedInStep out s t := by
  have hab : s.hostAbort = some .duringRead := by
    obtain e | ⟨e, -⟩ | ⟨info, e, -⟩ | ⟨-, hab⟩ := exec_run h
    · exact absurd (e.symm.trans ht) hs
    · cases e.symm.trans ht
    · cases e.symm.trans ht
    · exact hab
  refine ⟨hab, ?_⟩
  cases readsChar_of_exec_aborted h hs ht with
  | trapGetc ign =>
    rw [exec, execTrapGetc, readCharThen_aborted s.enterTrap hab] at h
    cases h
    exact ⟨_, List.prefix_rfl, abortedInStep_abortInStep rfl⟩
  | trapIn ign =>
    rw [exec, execTrapIn, readCharThen_aborted (s.enterTrap.writeChars s.params.inPrompt) hab] at h
    cases h
    exact ⟨_, List.prefix_append _ _, abortedInStep_abortInStep rfl⟩

/-- The poll leaves an RTI or a BR in KBSR, so no read for a character is fetched from there
(R121). -/
theorem pc_ne_kbsr_of_readsChar {s : State} (h : (decode s.fetch.1).ReadsChar) :
    s.pc ≠ kbsr := by
  intro hpc
  rw [State.fetch_fst, hpc, State.touch_kbsr] at h
  cases hp : s.io.poll.1 with
  | true =>
    obtain ⟨-, -, -, -, hread, -, -⟩ := State.pollKeyboard_pending hp
    rw [hread, show decode kbsrReady = .rti 0 by decide] at h
    cases h
  | false =>
    obtain ⟨-, hread, -⟩ := State.pollKeyboard_idle hp
    rw [hread, show decode kbsrIdle = .br 0 0 by decide] at h
    cases h

/-- Settles O54: the abort at a boundary writes the run state alone; one inside the step meets an
instruction that was fetched without a poll, and brings back what the fetch left, PC included. -/
theorem abortDiscardsTheStep : Obligations.AbortDiscardsTheStep := by
  intro s t h ht
  obtain ⟨hrun, ⟨hab, rfl⟩ | ⟨-, he⟩⟩ := step_next h
  · exact ⟨hab.trans_ne (Option.some_ne_none _), fun r _ => s.reg_abortAtBoundary r,
      s.pc_abortAtBoundary, s.cond_abortAtBoundary, .of_mem_eq s.mem_abortAtBoundary _,
      List.prefix_rfl, rfl⟩
  · have hs : s.fetch.2.run ≠ .aborted := by simp [hrun]
    have hfetch : s.fetch.2 = { s with pc := s.pc + 1 } := by
      rw [State.fetch_snd, s.touch_ne]
      exact pc_ne_kbsr_of_readsChar (readsChar_of_exec_aborted he hs ht)
    obtain ⟨hab, out, hout, hkept⟩ := exec_aborted he hs ht
    rw [hfetch] at hab hout hkept
    obtain ⟨-, hregs, hpc, hcond, hmem, hio⟩ := hkept
    exact ⟨hab.trans_ne (Option.some_ne_none _), hregs,
      hpc.trans (BitVec.add_sub_cancel s.pc 1), hcond, hmem, by rwa [hio], by rw [hio]⟩

end Sys2Proof.Machine
end

section
/-! The loader's image in memory, and the state after reset (spec/70_reset_and_hazards.md R280,
R281, R283; spec/10_state.md R33). -/

namespace Sys2Proof.Machine

/-! ## The loader -/

/-- The `k`-th word of an image that fits stands at the origin plus `k`, and that address does not
wrap (R283). -/
theorem Memory.read_writeWords_add (m : Memory) {a : Word} {vs : List Word}
    (hfit : a.toNat + vs.length ≤ 65536) {k : Nat} (hk : k < vs.length) :
    (m.writeWords a vs).read (a + BitVec.ofNat 16 k) = vs[k] := by
  have haddr : (a + BitVec.ofNat 16 k).toNat = a.toNat + k := by
    rw [BitVec.toNat_add, BitVec.toNat_ofNat, Nat.add_mod_mod]
    exact Nat.mod_eq_of_lt (by omega)
  rw [Memory.read_writeWords m a _ vs hfit, haddr, if_pos (Nat.le_add_right _ _),
    Nat.add_sub_cancel_left, List.getElem?_eq_getElem hk, Option.getD_some]

/-- The words before and after an image that fits are as before (R283). -/
theorem Memory.read_writeWords_outside (m : Memory) {a b : Word} {vs : List Word}
    (hfit : a.toNat + vs.length ≤ 65536)
    (hout : b.toNat < a.toNat ∨ a.toNat + vs.length ≤ b.toNat) :
    (m.writeWords a vs).read b = m.read b := by
  rw [Memory.read_writeWords m a b vs hfit]
  rcases hout with hbefore | hafter
  · rw [if_neg (by omega)]
  · rw [if_pos (by omega), List.getElem?_eq_none (by omega), Option.getD_none]

/-- Settles O44: the loader writes the memory alone, and only where the image fits. -/
theorem loaderPlacesImageThatFits : Obligations.LoaderPlacesImageThatFits := by
  intro s origin image
  obtain ⟨hfit, hload⟩ | ⟨hbig, hload⟩ := s.loadImage_cases origin image
  · refine ⟨fun _ => ⟨_, hload, ?_, ?_, ?_, ?_⟩, fun hbig => absurd hfit (by omega)⟩
    · exact fun k hk => s.mem.read_writeWords_add hfit hk
    · exact fun a hout => s.mem.read_writeWords_outside hfit hout
    · exact fun hw => Memory.wf_writeWords hw origin image
    · exact ⟨fun _ _ => rfl, rfl, rfl, rfl, rfl, rfl, rfl⟩
  · exact ⟨fun hfit => absurd hfit (by omega), fun _ => hload⟩

/-! ## The reset state -/

theorem reg_boot_zero (b : Config.Boot) (p : Config.Params) : (State.boot b p).reg 0 = 0x0000 := rfl

/-- `INIT_GPR` begins at R1 (R33). -/
theorem reg_boot_succ (b : Config.Boot) (p : Config.Params) (k : Fin 7) :
    (State.boot b p).reg k.succ = b.initGpr.get k := by
  fin_cases k <;> rfl

theorem initGpr_defaultBoot (k : Fin 7) : defaultBoot.initGpr.get k = 0x0000 := by
  fin_cases k <;> rfl

/-- Settles O59: R0 is not a parameter, and each other register is its entry of `INIT_GPR`. -/
theorem resetState : Obligations.ResetState := by
  refine ⟨fun b p => ⟨reg_boot_zero b p, reg_boot_succ b p, rfl, rfl, fun _ => rfl, rfl, rfl, rfl⟩,
    fun r => ?_, rfl, fun _ => rfl⟩
  induction r using Fin.cases with
  | zero => exact reg_boot_zero defaultBoot defaultParams
  | succ k => exact (reg_boot_succ defaultBoot defaultParams k).trans (initGpr_defaultBoot k)

end Sys2Proof.Machine
end
